-- ==== Sys2Proof/Word.lean ====
section
/-!
DEFINITION. The word types of the engine: bytes, the 32-bit command and response words, and the Block of
spec/00_scope.md R13, an explicit byte array of sixteen bytes with one reader and one builder.
-/

namespace Sys2Proof

/-- A byte: eight bits, bit 7 the most significant (R12). -/
abbrev Byte := BitVec 8

/-- A 32-bit port word, `CMD` or `RSP`; bit 31 is the most significant (R41, R61). -/
abbrev Word := BitVec 32

/-- A Block: exactly sixteen bytes, never resized (R13). `b0` is `B.byte[0]`. -/
structure Block where
  (b0 b1 b2 b3 b4 b5 b6 b7 b8 b9 b10 b11 b12 b13 b14 b15 : Byte)
deriving DecidableEq, Repr

/-- `B.byte[i]`, `0 <= i <= 15` (R13). -/
def Block.byte (b : Block) (i : Fin 16) : Byte :=
  match i.val with
  | 0 => b.b0
  | 1 => b.b1
  | 2 => b.b2
  | 3 => b.b3
  | 4 => b.b4
  | 5 => b.b5
  | 6 => b.b6
  | 7 => b.b7
  | 8 => b.b8
  | 9 => b.b9
  | 10 => b.b10
  | 11 => b.b11
  | 12 => b.b12
  | 13 => b.b13
  | 14 => b.b14
  | _ => b.b15

/-- The Block whose byte `i` is `f i`: the form of every "for i in 0..15: c.byte[i] <- ..." of the spec. -/
def Block.ofFn (f : Fin 16 → Byte) : Block :=
  ⟨f 0, f 1, f 2, f 3, f 4, f 5, f 6, f 7, f 8, f 9, f 10, f 11, f 12, f 13, f 14, f 15⟩

/-- `ZERO`, the Block of sixteen `0x00` bytes (R13). -/
def Block.zero : Block := Block.ofFn fun _ => 0

/-- The sixteen bytes in order, `byte[0]` first. -/
def Block.toList (b : Block) : List Byte := [b.b0, b.b1, b.b2, b.b3, b.b4, b.b5, b.b6, b.b7, b.b8, b.b9, b.b10, b.b11, b.b12, b.b13, b.b14, b.b15]

/-- `B.byte[i] <- v`, every other byte as it was. -/
def Block.setByte (b : Block) (i : Fin 16) (v : Byte) : Block :=
  Block.ofFn fun j => if j = i then v else b.byte j

end Sys2Proof
end

