-- ==== Sys2Proof/Syntax.lean ====
section
/-!
DEFINITION. The ten commands of spec/30_encoding.md R63, one constructor per row of spec/opcode_table.json. The
operands are those of the command word; the bytes on `DIN` are the data port's, not the command word's (R60, R65).
-/

namespace Sys2Proof

/-- The direction of an invocation: `DIR` is 0 for encryption and 1 for decryption (R26, R62). -/
inductive Dir where
  | encrypt
  | decrypt
deriving DecidableEq, Repr

/-- A decoded command. `len` counts the operand's bytes on `DIN`, `val` is the requested tag length; each is
used as it stands (R62). -/
inductive Instr where
  /-- load the 32-byte key (R130) -/
  | setkey (len : Nat)
  /-- set the tag length (R131) -/
  | settaglen (val : Nat)
  /-- open an invocation (R93) -/
  | init (len : Nat) (dir : Dir)
  /-- take the next associated-data bytes (R102) -/
  | ad (len : Nat)
  /-- encrypt the next payload bytes (R111) -/
  | enc (len : Nat)
  /-- decrypt the next payload bytes (R112) -/
  | dec (len : Nat)
  /-- end an encrypting invocation, return the tag (R121) -/
  | finalEmit
  /-- end a decrypting invocation, check the tag (R123) -/
  | finalVerify (len : Nat)
  /-- discard the invocation (R132) -/
  | abort
  /-- report the response word, change nothing (R133) -/
  | status
deriving DecidableEq, Repr

end Sys2Proof
end

