-- ==== Sys2Proof/WellFormed.lean ====
section
/-!
DEFINITION. When a command's operands fit the eight-bit fields `CMD[15:8]` of spec/30_encoding.md R61, R62. A value
a command does not accept (a `LEN` of 33, a `VAL` of 7) is well formed: the word decodes and the command's own
check refuses it (R64).
-/

namespace Sys2Proof

/-- The operand fits the eight bits of `CMD[15:8]` (R62). -/
def fitsField (n : Nat) : Bool := decide (n < 256)

/-- The operands of a command fit its format (R61). -/
def Instr.wellFormed (i : Instr) : Bool :=
  match i with
  | .setkey len => fitsField len
  | .settaglen val => fitsField val
  | .init len _ => fitsField len
  | .ad len => fitsField len
  | .enc len => fitsField len
  | .dec len => fitsField len
  | .finalEmit => true
  | .finalVerify len => fitsField len
  | .abort => true
  | .status => true

/-- The command is one that some word of R61 encodes. -/
abbrev Instr.WellFormed (i : Instr) : Prop := i.wellFormed = true

end Sys2Proof
end

