-- ==== Sys2Proof/Decode.lean ====
section
/-!
DEFINITION. Decoding and encoding of command words: spec/30_encoding.md R61 to R65. Decoding is total, depends on
the word alone, and rejects by name. After it the encoder, from the same format tables, and the opcode table of R63.
-/

namespace Sys2Proof

/-- Why a word is illegal (R64). -/
inductive Illegal where
  /-- `OP` is not one of 0x01 to 0x0A -/
  | unassignedOp
  /-- a bit that the format marks "0" is 1 -/
  | reservedBits
deriving DecidableEq, Repr

/-- `OP = CMD[7:0]` (R62). -/
def Word.op (w : Word) : Nat := (w.extractLsb' 0 8).toNat

/-- `LEN = CMD[15:8]`, and `VAL = CMD[15:8]`: unsigned, used as it stands (R62). -/
def Word.operand (w : Word) : Nat := (w.extractLsb' 8 8).toNat

/-- `DIR = CMD[16]`: 0 for encryption, 1 for decryption (R62). -/
def Word.dir (w : Word) : Dir := if w.getLsbD 16 then .decrypt else .encrypt

/-- Accept `i` when the reserved bits, those from bit `lo` up, are zero (R61, R64). -/
def reservedFrom (lo : Nat) (w : Word) (i : Instr) : Except Illegal Instr :=
  if w >>> lo = 0 then .ok i else .error .reservedBits

/-- `decode(CMD)` of R65: formats Z (reserved from bit 8), L and V (from bit 16), I (from bit 17). -/
def decode (w : Word) : Except Illegal Instr :=
  match Word.op w with
  | 0x07 => reservedFrom 8 w .finalEmit
  | 0x09 => reservedFrom 8 w .abort
  | 0x0A => reservedFrom 8 w .status
  | 0x01 => reservedFrom 16 w (.setkey (Word.operand w))
  | 0x04 => reservedFrom 16 w (.ad (Word.operand w))
  | 0x05 => reservedFrom 16 w (.enc (Word.operand w))
  | 0x06 => reservedFrom 16 w (.dec (Word.operand w))
  | 0x08 => reservedFrom 16 w (.finalVerify (Word.operand w))
  | 0x02 => reservedFrom 16 w (.settaglen (Word.operand w))
  | 0x03 => reservedFrom 17 w (.init (Word.operand w) (Word.dir w))
  | _ => .error .unassignedOp

/-- The instruction the decoder reads from a word given as a number, bit 0 the least significant (R61). Every
command is one 32-bit word, so bits from `nbits` up are zero and bits from 32 up are no part of it (R60). -/
def decodeTableWord (nbits w : Nat) : Option Instr :=
  match decode (BitVec.ofNat 32 (w % 2 ^ nbits)) with
  | .ok i => some i
  | .error _ => none

/-- The opcode of a command (R63). -/
def Instr.opcode (i : Instr) : Word :=
  match i with
  | .setkey _ => 0x01
  | .settaglen _ => 0x02
  | .init _ _ => 0x03
  | .ad _ => 0x04
  | .enc _ => 0x05
  | .dec _ => 0x06
  | .finalEmit => 0x07
  | .finalVerify _ => 0x08
  | .abort => 0x09
  | .status => 0x0A

/-- Bit 16 of a format I word (R61). -/
def Dir.bit (d : Dir) : Word :=
  match d with
  | .encrypt => 0
  | .decrypt => 1

/-- The field `CMD[15:8]` holding `n` (R61). -/
def operandField (n : Nat) : Word := (BitVec.ofNat 8 n).setWidth 32 <<< 8

/-- The word of a command, by its format of R61. On well-formed commands it is the inverse of `decode` (R65). -/
def encode (i : Instr) : Word :=
  match i with
  | .setkey len => i.opcode ||| operandField len
  | .settaglen val => i.opcode ||| operandField val
  | .init len dir => i.opcode ||| operandField len ||| (dir.bit <<< 16)
  | .ad len => i.opcode ||| operandField len
  | .enc len => i.opcode ||| operandField len
  | .dec len => i.opcode ||| operandField len
  | .finalEmit => i.opcode
  | .finalVerify len => i.opcode ||| operandField len
  | .abort => i.opcode
  | .status => i.opcode

/-- One row of the opcode map of R63: a word `w` is the command exactly when `w &&& mask = pattern`. -/
structure OpcodeRow where
  mnemonic : String
  pattern : Word
  mask : Word
deriving DecidableEq, Repr

/-- The row of R63 a command stands in. -/
def Instr.row (i : Instr) : OpcodeRow :=
  match i with
  | .setkey _ => ⟨"SETKEY", 0x00000001, 0xFFFF00FF⟩
  | .settaglen _ => ⟨"SETTAGLEN", 0x00000002, 0xFFFF00FF⟩
  | .init _ _ => ⟨"INIT", 0x00000003, 0xFFFE00FF⟩
  | .ad _ => ⟨"AD", 0x00000004, 0xFFFF00FF⟩
  | .enc _ => ⟨"ENC", 0x00000005, 0xFFFF00FF⟩
  | .dec _ => ⟨"DEC", 0x00000006, 0xFFFF00FF⟩
  | .finalEmit => ⟨"FINAL_EMIT", 0x00000007, 0xFFFFFFFF⟩
  | .finalVerify _ => ⟨"FINAL_VERIFY", 0x00000008, 0xFFFF00FF⟩
  | .abort => ⟨"ABORT", 0x00000009, 0xFFFFFFFF⟩
  | .status => ⟨"STATUS", 0x0000000A, 0xFFFFFFFF⟩

/-- The opcode map of R63, in its order. -/
def opcodeTable : List OpcodeRow :=
  [Instr.row (.setkey 0), Instr.row (.settaglen 0), Instr.row (.init 0 .encrypt), Instr.row (.ad 0),
   Instr.row (.enc 0), Instr.row (.dec 0), Instr.row .finalEmit, Instr.row (.finalVerify 0),
   Instr.row .abort, Instr.row .status]

end Sys2Proof
end

