-- ==== Sys2Proof/Config.lean ====
section
/-!
DEFINITION. The configuration of spec/00_scope.md R8 to R11: what the spec fixes as constants, and the three
parameters it leaves to the instance (decisions D29, D30).
-/

namespace Sys2Proof

/-- The parameters a model takes as arguments (R9, R10). No command reads them as data or writes them (R20).
The functions of the datapath take a `Config`; the engine runs under `Sys2Proof.Machine.config`. -/
structure Config where
  /-- `CONST0`, the first domain-separation Block (R9). -/
  const0 : Block
  /-- `CONST1`, the second domain-separation Block (R9). -/
  const1 : Block
  /-- One AES round with no key addition (R10, R86). -/
  aesCore : Block → Block

/-- `BLOCK_BYTES` of R8: bytes in a Block, and the most a data beat may carry (R45). -/
abbrev blockBytes : Nat := 16
/-- `KEY_BYTES` of R8. -/
abbrev keyBytes : Nat := 32
/-- `NONCE_BYTES` of R8. -/
abbrev nonceBytes : Nat := 32
/-- `TAG_MIN` of R8. -/
abbrev tagMin : Nat := 8
/-- `TAG_MAX` of R8. -/
abbrev tagMax : Nat := 16
/-- `INIT_REPS` of R8: repetitions of the four-absorption sequence in `initialize`. -/
abbrev initReps : Nat := 4
/-- `FINAL_ROUNDS` of R8: absorptions of the length block in `finalize`. -/
abbrev finalRounds : Nat := 7

end Sys2Proof
end

