-- ==== Sys2Proof/Machine/BlockOps.lean ====
section
/-!
DEFINITION. BlockOps: the Block primitives and the AES-round composition unit of spec/40_blockops.md R80 to R86,
the word view of a Block (spec/00_scope.md R13), and the configuration the engine runs under (R9, R10).
-/

namespace Sys2Proof.Machine

/-- `xor(a, b)`: bytewise XOR (R80). -/
def xorBlock (a b : Block) : Block := Block.ofFn fun i => a.byte i ^^^ b.byte i

/-- `and(a, b)`: bytewise AND (R81). -/
def andBlock (a b : Block) : Block := Block.ofFn fun i => a.byte i &&& b.byte i

/-- `zeropad(s)`: `s` followed by `0x00` bytes up to sixteen (R13). -/
def zeropad (bytes : List Byte) : Block := Block.ofFn fun i => bytes.getD i.val 0

/-- Byte `j` of `le64(n)`, `0 <= j <= 7`: least significant byte first (R13). -/
def le64Byte (n : BitVec 64) (j : Nat) : Byte := (n >>> (8 * j)).setWidth 8

/-- `le64(n)`: the eight bytes of `n`, least significant first (R13). -/
def le64 (n : BitVec 64) : List Byte := (List.range 8).map (le64Byte n)

/-- The Block with `word[0] = w0` in bytes 0 to 7 and `word[1] = w1` in bytes 8 to 15, each little-endian (R13, R44). -/
def blockOfWords (w0 w1 : BitVec 64) : Block := zeropad (le64 w0 ++ le64 w1)

/-- `B.word[w]`: the sum over `j` in 0..7 of `B.byte[8w + j] * 2^(8j)` (R13). -/
def blockWord (b : Block) (w : Fin 2) : BitVec 64 :=
  (List.range 8).foldl (fun acc j => acc + ((b.toList.getD (8 * w.val + j) 0).setWidth 64 <<< (8 * j))) 0

/-- `for rep in 1..n: a <- f(a)` (R14). -/
def repeatTimes {α : Type} (n : Nat) (f : α → α) (a : α) : α :=
  match n with
  | 0 => a
  | k + 1 => repeatTimes k f (f a)

/-! The parts of the AES round. -/

/-- Multiplication by `x` in GF(2^8) modulo `0x11B`: `0x1B & (0x00 - a[7])` after the shift (R82). -/
def xtime (a : Byte) : Byte := (a <<< 1) ^^^ (if a.getLsbD 7 then 0x1B else 0x00)

/-- The XOR over the set bits `i < n` of `b` of `xtime^i(a)` (R82). -/
def gmulBits (n : Nat) (a b : Byte) : Byte :=
  match n with
  | 0 => 0
  | k + 1 => (if b.getLsbD 0 then a else 0) ^^^ gmulBits k (xtime a) (b >>> 1)

/-- `gmul(a, b)`: the product in GF(2^8) (R82). -/
def gmul (a b : Byte) : Byte := gmulBits 8 a b

/-- The AES substitution table, row `hi`, column `lo` (R83). -/
def sboxTable : List (List Nat) :=
  [[0x63, 0x7c, 0x77, 0x7b, 0xf2, 0x6b, 0x6f, 0xc5, 0x30, 0x01, 0x67, 0x2b, 0xfe, 0xd7, 0xab, 0x76],
   [0xca, 0x82, 0xc9, 0x7d, 0xfa, 0x59, 0x47, 0xf0, 0xad, 0xd4, 0xa2, 0xaf, 0x9c, 0xa4, 0x72, 0xc0],
   [0xb7, 0xfd, 0x93, 0x26, 0x36, 0x3f, 0xf7, 0xcc, 0x34, 0xa5, 0xe5, 0xf1, 0x71, 0xd8, 0x31, 0x15],
   [0x04, 0xc7, 0x23, 0xc3, 0x18, 0x96, 0x05, 0x9a, 0x07, 0x12, 0x80, 0xe2, 0xeb, 0x27, 0xb2, 0x75],
   [0x09, 0x83, 0x2c, 0x1a, 0x1b, 0x6e, 0x5a, 0xa0, 0x52, 0x3b, 0xd6, 0xb3, 0x29, 0xe3, 0x2f, 0x84],
   [0x53, 0xd1, 0x00, 0xed, 0x20, 0xfc, 0xb1, 0x5b, 0x6a, 0xcb, 0xbe, 0x39, 0x4a, 0x4c, 0x58, 0xcf],
   [0xd0, 0xef, 0xaa, 0xfb, 0x43, 0x4d, 0x33, 0x85, 0x45, 0xf9, 0x02, 0x7f, 0x50, 0x3c, 0x9f, 0xa8],
   [0x51, 0xa3, 0x40, 0x8f, 0x92, 0x9d, 0x38, 0xf5, 0xbc, 0xb6, 0xda, 0x21, 0x10, 0xff, 0xf3, 0xd2],
   [0xcd, 0x0c, 0x13, 0xec, 0x5f, 0x97, 0x44, 0x17, 0xc4, 0xa7, 0x7e, 0x3d, 0x64, 0x5d, 0x19, 0x73],
   [0x60, 0x81, 0x4f, 0xdc, 0x22, 0x2a, 0x90, 0x88, 0x46, 0xee, 0xb8, 0x14, 0xde, 0x5e, 0x0b, 0xdb],
   [0xe0, 0x32, 0x3a, 0x0a, 0x49, 0x06, 0x24, 0x5c, 0xc2, 0xd3, 0xac, 0x62, 0x91, 0x95, 0xe4, 0x79],
   [0xe7, 0xc8, 0x37, 0x6d, 0x8d, 0xd5, 0x4e, 0xa9, 0x6c, 0x56, 0xf4, 0xea, 0x65, 0x7a, 0xae, 0x08],
   [0xba, 0x78, 0x25, 0x2e, 0x1c, 0xa6, 0xb4, 0xc6, 0xe8, 0xdd, 0x74, 0x1f, 0x4b, 0xbd, 0x8b, 0x8a],
   [0x70, 0x3e, 0xb5, 0x66, 0x48, 0x03, 0xf6, 0x0e, 0x61, 0x35, 0x57, 0xb9, 0x86, 0xc1, 0x1d, 0x9e],
   [0xe1, 0xf8, 0x98, 0x11, 0x69, 0xd9, 0x8e, 0x94, 0x9b, 0x1e, 0x87, 0xe9, 0xce, 0x55, 0x28, 0xdf],
   [0x8c, 0xa1, 0x89, 0x0d, 0xbf, 0xe6, 0x42, 0x68, 0x41, 0x99, 0x2d, 0x0f, 0xb0, 0x54, 0xbb, 0x16]]

/-- `SBOX[x]`, `SBOX[16*hi + lo]` of the table (R83). -/
def sbox (x : Byte) : Byte := BitVec.ofNat 8 ((sboxTable.getD (x.toNat / 16) []).getD (x.toNat % 16) 0)

/-- `subBytes(a)`: every byte by its image under `SBOX` (R83). -/
def subBytes (a : Block) : Block := Block.ofFn fun i => sbox (a.byte i)

/-- `shiftRows(a)`: byte `r + 4c` comes from byte `r + 4*((c + r) mod 4)` (R84). -/
def shiftRows (a : Block) : Block :=
  Block.ofFn fun i =>
    let r := i.val % 4
    let c := i.val / 4
    a.byte (Fin.ofNat 16 (r + 4 * ((c + r) % 4)))

/-- `mixColumns(a)`: row `r` of column `c` is row `r` of the fixed matrix times the column (R85). -/
def mixColumns (a : Block) : Block :=
  Block.ofFn fun i =>
    let s (k : Nat) : Byte := a.byte (Fin.ofNat 16 (4 * (i.val / 4) + k))
    match i.val % 4 with
    | 0 => gmul (s 0) 2 ^^^ gmul (s 1) 3 ^^^ s 2 ^^^ s 3
    | 1 => s 0 ^^^ gmul (s 1) 2 ^^^ gmul (s 2) 3 ^^^ s 3
    | 2 => s 0 ^^^ s 1 ^^^ gmul (s 2) 2 ^^^ gmul (s 3) 3
    | _ => gmul (s 0) 3 ^^^ s 1 ^^^ s 2 ^^^ gmul (s 3) 2

/-- `aesCore(a) = mixColumns(shiftRows(subBytes(a)))` (R86): the default of the parameter of R10 (assumption log 2). -/
def aesCoreDefault (a : Block) : Block := mixColumns (shiftRows (subBytes a))

/-- `aesRound(a, b) = xor(aesCore(a), b)`: `a` is the Block transformed, `b` the one added (R86). -/
def aesRound (c : Config) (a b : Block) : Block := xorBlock (c.aesCore a) b

/-- A Block from sixteen byte values, `byte[0]` first: how the spec writes a Block (R13). -/
def blockOfNats (l : List Nat) : Block := zeropad (l.map fun n => BitVec.ofNat 8 n)

/-- The default of `CONST0` (R9, assumption log 1). -/
def const0Default : Block :=
  blockOfNats [0x00, 0x01, 0x01, 0x02, 0x03, 0x05, 0x08, 0x0d, 0x15, 0x22, 0x37, 0x59, 0x90, 0xe9, 0x79, 0x62]

/-- The default of `CONST1` (R9, assumption log 1). -/
def const1Default : Block :=
  blockOfNats [0xdb, 0x3d, 0x18, 0x55, 0x6d, 0xc2, 0x2f, 0xf1, 0x20, 0x11, 0x31, 0x42, 0x73, 0xb5, 0x28, 0xdd]

/-- The configuration the engine runs under: the defaults of R9 and R10 (decisions D29, D30; assumption log 1, 2). -/
def config : Config := { const0 := const0Default, const1 := const1Default, aesCore := aesCoreDefault }

end Sys2Proof.Machine
end

