-- ==== Sys2Proof/Machine/State.lean ====
section
/-!
DEFINITION. The machine's state as plain data: the sixteen registers of spec/10_state.md R20, the ports of
spec/20_memory.md R41, and the reset values of R34.
-/

namespace Sys2Proof.Machine

/-- The permutation state `S[0]` to `S[5]`, six Blocks in order (R21). -/
structure SixBlocks where
  s0 : Block
  s1 : Block
  s2 : Block
  s3 : Block
  s4 : Block
  s5 : Block
deriving DecidableEq, Repr

/-- The `PHASE` register: the eight states of R24, in the order of their values 0 to 7. -/
inductive Phase where
  /-- 0: no invocation open, none ended since reset or `ABORT` -/
  | idle
  /-- 1: `INIT` done, nothing taken yet -/
  | initialized
  /-- 2: at least one `AD` taken -/
  | absorbingAd
  /-- 3: at least one `ENC` or `DEC` taken -/
  | processingPayload
  /-- 4: transient, only inside `FINAL_EMIT` and `FINAL_VERIFY` -/
  | finalized
  /-- 5: ended with `FINAL_EMIT` -/
  | tagEmitted
  /-- 6: ended with `FINAL_VERIFY`, the tag matched -/
  | verified
  /-- 7: ended with `FINAL_VERIFY`, the tag did not match -/
  | authFailed
deriving DecidableEq, Repr

/-- The outcome reported in the `ERR` field of a response: the rows of R141, in the order of their codes 0 to 7. -/
inductive Err where
  | ok
  | illegalCmd
  | phaseErr
  | noKey
  | invalidKeyLength
  | invalidTagLength
  | invalidLength
  | authFail
deriving DecidableEq, Repr

/-- The whole architectural state of one engine: the sixteen registers of R20. -/
structure Engine where
  /-- `S[0]`..`S[5]`, the State (R21) -/
  s : SixBlocks
  /-- `K[0]`, key bytes 0 to 15 (R22) -/
  k0 : Block
  /-- `K[1]`, key bytes 16 to 31 (R22) -/
  k1 : Block
  /-- `KEYV`, one bit: `K` holds a key accepted by `SETKEY` (R22) -/
  keyv : Bool
  /-- `TAGLEN`, the tag length in bytes, 8 to 16 (R23) -/
  taglen : BitVec 5
  /-- `PHASE` (R24) -/
  phase : Phase
  /-- `DIR`, one bit (R26) -/
  dir : Dir
  /-- `ADBITS`, associated-data length so far, in bits (R27) -/
  adbits : BitVec 64
  /-- `MSGBITS`, payload length so far, in bits (R27) -/
  msgbits : BitVec 64
  /-- `BUF`, the partial-block buffer (R28) -/
  buf : Block
  /-- `POS`, four bits: how many bytes of `BUF` are valid, 0 to 15 (R28) -/
  pos : Fin 16
deriving DecidableEq, Repr

/-- The 32 bytes of the data-in port: `lo` is `DIN[0..16)`, `hi` is `DIN[16..32)` (R41, R43). -/
structure DataIn where
  lo : Block
  hi : Block
deriving DecidableEq, Repr

/-- A command packet, the pair (`CMD`, `DIN`) (R41, R60). -/
structure CommandPacket where
  cmd : Word
  din : DataIn
deriving DecidableEq, Repr

/-- A response packet, the pair (`RSP`, `DOUT`) (R41, R66). -/
structure Response where
  rsp : Word
  dout : Block
deriving DecidableEq, Repr

/-- What the host may do between two commands (R160, R172): present a command packet, or assert reset. -/
inductive HostEvent where
  | command (p : CommandPacket)
  | reset
deriving DecidableEq, Repr

/-- Why the machine stops. There is no such reason: the decoder and every command are total on every packet and
every state, nothing hangs and nothing is undefined (R16, R64, R172). An error of R141 is a response, so a next
state. Safe: nothing is cut off. -/
inductive Fault where
deriving DecidableEq, Repr

/-- Why an instruction has no meaning. -/
inductive Refusal where
  /-- Raised only by an arm of `exec` for a command of the opcode table that has no meaning yet. Safe: the machine
  stops where the hardware goes on. No arm raises it. -/
  | notModelled (mnemonic : String)
deriving DecidableEq, Repr

/-- The engine and its ports. `eng` is all that R20 calls state; the other three fields are the model's own, so
that one step is a function of `State` (assumption log 3, 4). -/
structure State where
  /-- the sixteen registers (R20) -/
  eng : Engine
  /-- the data-in lanes of the packet being executed (R41) -/
  din : DataIn
  /-- what the host does next, oldest first (R49, R160) -/
  pending : List HostEvent
  /-- the responses given so far, oldest first (R49) -/
  responses : List Response
deriving DecidableEq, Repr

/-- Six `ZERO` Blocks. -/
def SixBlocks.zero : SixBlocks :=
  { s0 := Block.zero, s1 := Block.zero, s2 := Block.zero, s3 := Block.zero, s4 := Block.zero, s5 := Block.zero }

/-- The reset value of every register, the table of R34. -/
def Engine.reset : Engine :=
  { s := SixBlocks.zero
    k0 := Block.zero
    k1 := Block.zero
    keyv := false
    taglen := 16
    phase := .idle
    dir := .encrypt
    adbits := 0
    msgbits := 0
    buf := Block.zero
    pos := 0 }

/-- The machine right after reset (R34, R160): every register at its reset value, no packet presented, no host
action pending, no response given (assumption log 3, 4). -/
def State.reset : State :=
  { eng := Engine.reset
    din := { lo := Block.zero, hi := Block.zero }
    pending := []
    responses := [] }

end Sys2Proof.Machine
end

