-- ==== Sys2Proof/Machine/Flags.lean ====
section
/-!
DEFINITION. The status the engine reports. It has no condition codes (spec/10_state.md R30); what stands in the place
of flags are the fields of the response word `RSP` of spec/30_encoding.md R66, all computed here.
-/

namespace Sys2Proof.Machine

/-- The code of an outcome in `RSP[3:0]` (R141). -/
def Err.code (e : Err) : Nat :=
  match e with
  | .ok => 0
  | .illegalCmd => 1
  | .phaseErr => 2
  | .noKey => 3
  | .invalidKeyLength => 4
  | .invalidTagLength => 5
  | .invalidLength => 6
  | .authFail => 7

/-- The value of `PHASE` (R24). -/
def Phase.code (p : Phase) : Nat :=
  match p with
  | .idle => 0
  | .initialized => 1
  | .absorbingAd => 2
  | .processingPayload => 3
  | .finalized => 4
  | .tagEmitted => 5
  | .verified => 6
  | .authFailed => 7

/-- The value of `DIR` (R26). -/
def dirCode (d : Dir) : Nat :=
  match d with
  | .encrypt => 0
  | .decrypt => 1

/-- `RSP = ERR | PHASE << 4 | KEYV << 7 | OLEN << 8 | TAGLEN << 16 | DIR << 21` (R66). The register fields are
those of the engine after the command. -/
def rspWord (err : Err) (olen : Nat) (e : Engine) : Word :=
  BitVec.ofNat 32 err.code
    ||| (BitVec.ofNat 32 e.phase.code <<< 4)
    ||| (BitVec.ofNat 32 e.keyv.toNat <<< 7)
    ||| (BitVec.ofNat 32 olen <<< 8)
    ||| (e.taglen.setWidth 32 <<< 16)
    ||| (BitVec.ofNat 32 (dirCode e.dir) <<< 21)

/-! The fields of a response as the host reads them (R66). -/

/-- `ERR`, bits 3:0. -/
def Response.err (r : Response) : Nat := (r.rsp.extractLsb' 0 4).toNat
/-- `PHASE`, bits 6:4. -/
def Response.phase (r : Response) : Nat := (r.rsp.extractLsb' 4 3).toNat
/-- `KEYV`, bit 7. -/
def Response.keyv (r : Response) : Bool := r.rsp.getLsbD 7
/-- `OLEN`, bits 12:8. -/
def Response.olen (r : Response) : Nat := (r.rsp.extractLsb' 8 5).toNat
/-- `TAGLEN`, bits 20:16. -/
def Response.taglen (r : Response) : BitVec 5 := r.rsp.extractLsb' 16 5
/-- `DIR`, bit 21. -/
def Response.dir (r : Response) : Bool := r.rsp.getLsbD 21
/-- The reserved bits 15:13 and 31:22 are all zero. -/
def Response.reservedZero (r : Response) : Bool := r.rsp.extractLsb' 13 3 == 0 && r.rsp.extractLsb' 22 10 == 0
/-- `DOUT.byte[0..OLEN)`, the valid output bytes (R66, R67). -/
def Response.bytes (r : Response) : List Byte := r.dout.toList.take r.olen

end Sys2Proof.Machine
end

