-- ==== Sys2Proof/Machine/Operands.lean ====
section
/-!
DEFINITION. The operand forms: the bytes a command takes from the data-in port (spec/20_memory.md R43 to R47,
spec/30_encoding.md R62). Every operand is a leading run of `DIN`; lanes beyond it are ignored.
-/

namespace Sys2Proof.Machine

/-- `DIN.byte[0] .. DIN.byte[31]`, in order (R43). -/
def DataIn.bytes (d : DataIn) : List Byte := d.lo.toList ++ d.hi.toList

/-- `DIN[0..n)`, the operand of a command whose length is `n` (R45, R62). -/
def DataIn.first (d : DataIn) (n : Nat) : List Byte := d.bytes.take n

/-- `DIN[0..16)` (R93, R130). -/
def DataIn.firstBlock (d : DataIn) : Block := d.lo

/-- `DIN[16..32)` (R93, R130). -/
def DataIn.secondBlock (d : DataIn) : Block := d.hi

/-- A data-in port carrying `bytes` on its first lanes and `0x00` on the rest (R68). -/
def dataInOf (bytes : List Byte) : DataIn := { lo := zeropad bytes, hi := zeropad (bytes.drop 16) }

end Sys2Proof.Machine
end

