-- ==== Sys2Proof/Machine/Ops.lean ====
section
/-!
DEFINITION. The operations every command shares: building the response, refusing a command (the engine's whole
"trap entry", spec/60_exceptions.md R140, R150), discarding the invocation (spec/10_state.md R32), and taking the
host's next input from the ports (spec/20_memory.md R41, R49).
-/

namespace Sys2Proof.Machine

/-! Reading the phase register. -/

/-- The phases with an invocation open (R24). -/
def Phase.isOpen (p : Phase) : Bool :=
  match p with
  | .initialized => true
  | .absorbingAd => true
  | .processingPayload => true
  | .idle => false
  | .finalized => false
  | .tagEmitted => false
  | .verified => false
  | .authFailed => false

/-- The phases between invocations (R24). -/
def Phase.isBetween (p : Phase) : Bool :=
  match p with
  | .idle => true
  | .tagEmitted => true
  | .verified => true
  | .authFailed => true
  | .initialized => false
  | .absorbingAd => false
  | .processingPayload => false
  | .finalized => false

/-- The phases in which associated data is taken (R25, R102). -/
def Phase.takesAd (p : Phase) : Bool :=
  match p with
  | .initialized => true
  | .absorbingAd => true
  | .idle => false
  | .processingPayload => false
  | .finalized => false
  | .tagEmitted => false
  | .verified => false
  | .authFailed => false

/-! Responding. -/

/-- The response packet with `ERR = err`, `DOUT = zeropad(bytes)`, `OLEN = len(bytes)`, its register fields those
of `e` (R14, R66, R67). -/
def responseOf (err : Err) (bytes : List Byte) (e : Engine) : Response :=
  { rsp := rspWord err bytes.length e, dout := zeropad bytes }

/-- End the command: the registers become `e`, all writes together, and one response is given (R14 `respond`, R48). -/
def State.finish (s : State) (e : Engine) (err : Err) (bytes : List Byte) : State :=
  { s with eng := e, responses := s.responses ++ [responseOf err bytes e] }

/-- `respond(OK, bytes)` after the register writes that give `e`. -/
def State.accept (s : State) (e : Engine) (bytes : List Byte) : Host.Outcome State Fault Refusal :=
  .next (s.finish e .ok bytes)

/-- `raise <Error>`: respond with the error and no data, no register written (R14, R140, R150). There is no handler,
no saved register and no return (R151). -/
def State.raise (s : State) (err : Err) : Host.Outcome State Fault Refusal :=
  .next (s.finish s.eng err [])

/-- `ILLEGAL_CMD`: the answer to every word that `decode` rejects, whatever its reason (R64, R142). -/
def State.refuseIllegal (s : State) (_why : Illegal) : Host.Outcome State Fault Refusal :=
  s.raise .illegalCmd

/-- `clearInvocation()`: discard the invocation's registers; `K`, `KEYV`, `TAGLEN`, `PHASE` stay (R32). -/
def clearInvocation (e : Engine) : Engine :=
  { e with
    s := SixBlocks.zero
    buf := Block.zero
    pos := 0
    adbits := 0
    msgbits := 0
    dir := .encrypt }

/-! The ports. -/

/-- Take the host's oldest pending input, if there is one (R49). -/
def State.fetch (s : State) : Option (HostEvent × State) :=
  match s.pending with
  | [] => none
  | ev :: rest => some (ev, { s with pending := rest })

/-- Put a packet's data bytes on the data-in port (R41). -/
def State.present (s : State) (p : CommandPacket) : State := { s with din := p.din }

/-- The reset event: every register takes its reset value, no response is given (R160). What the host has yet to
present and what it has been given are the host's and stay (assumption log 6). -/
def State.applyReset (s : State) : State := { s with eng := State.reset.eng }

/-- The packet of a command word given as a number, bit 0 the least significant, with `DIN` all zero. -/
def wordPacket (nbits w : Nat) : CommandPacket :=
  { cmd := BitVec.ofNat 32 (w % 2 ^ nbits), din := dataInOf [] }

/-- The host presents `ev` before anything else it has pending. -/
def State.presentFirst (s : State) (ev : HostEvent) : State := { s with pending := ev :: s.pending }

end Sys2Proof.Machine
end

