-- ==== Sys2Proof/Machine/StateEngine.lean ====
section
/-!
DEFINITION. StateEngine: the update permutation, `absorbBlock`, `initialize` and the `INIT` command of
spec/41_state_engine.md R90 to R93.
-/

namespace Sys2Proof.Machine

/-- `update(S)`: every new Block from pre-update values only; the Block transformed is the lower-numbered
neighbour, `S[5]` for `S'[0]` (R90). -/
def update (c : Config) (S : SixBlocks) : SixBlocks :=
  { s0 := aesRound c S.s5 S.s0
    s1 := aesRound c S.s0 S.s1
    s2 := aesRound c S.s1 S.s2
    s3 := aesRound c S.s2 S.s3
    s4 := aesRound c S.s3 S.s4
    s5 := aesRound c S.s4 S.s5 }

/-- `absorbBlock(S, msg)`: `update`, then `msg` XORed into the new `S[0]` (R91). -/
def absorbBlock (c : Config) (S : SixBlocks) (msg : Block) : SixBlocks :=
  { update c S with s0 := xorBlock (update c S).s0 msg }

/-- One repetition of `initialize`'s sequence of four absorptions (R92). -/
def initRound (c : Config) (k0 k1 kn0 kn1 : Block) (S : SixBlocks) : SixBlocks :=
  absorbBlock c (absorbBlock c (absorbBlock c (absorbBlock c S k0) k1) kn0) kn1

/-- The State `initialize` starts its sixteen absorptions from (R92). -/
def initStart (c : Config) (k0 k1 kn0 kn1 : Block) : SixBlocks :=
  { s0 := kn0
    s1 := kn1
    s2 := c.const1
    s3 := c.const0
    s4 := xorBlock k0 c.const0
    s5 := xorBlock k1 c.const1 }

/-- `initialize(key, nonce)` with the nonce as its two Blocks (R92). -/
def initState (c : Config) (k0 k1 n0 n1 : Block) : SixBlocks :=
  let kn0 := xorBlock k0 n0
  let kn1 := xorBlock k1 n1
  repeatTimes initReps (initRound c k0 k1 kn0 kn1) (initStart c k0 k1 kn0 kn1)

/-- `INIT`: open an invocation (R93). -/
def execInit (len : Nat) (dir : Dir) (s : State) : Host.Outcome State Fault Refusal :=
  if s.eng.phase.isBetween = false then s.raise .phaseErr
  else if s.eng.keyv = false then s.raise .noKey
  else if len ≠ nonceBytes then s.raise .invalidLength
  else
    s.accept
      { clearInvocation s.eng with
        s := initState config s.eng.k0 s.eng.k1 s.din.firstBlock s.din.secondBlock
        dir := dir
        phase := .initialized }
      []

end Sys2Proof.Machine
end

