-- ==== Sys2Proof/Machine/Absorption.lean ====
section
/-!
DEFINITION. Absorption: the partial-block buffer and the `AD` command of spec/42_absorption.md R100 to R102.
-/

namespace Sys2Proof.Machine

/-- `takeByte(b)`: put one stream byte into `BUF` and absorb `BUF` the moment its sixteenth byte arrives (R100). -/
def takeByte (c : Config) (e : Engine) (b : Byte) : Engine :=
  let buf := e.buf.setByte e.pos b
  if e.pos.val + 1 = blockBytes then
    { e with s := absorbBlock c e.s buf, buf := Block.zero, pos := 0 }
  else
    { e with buf := buf, pos := e.pos + 1 }

/-- `flushTail()`: absorb the incomplete trailing Block, if there is one (R101). -/
def flushTail (c : Config) (e : Engine) : Engine :=
  { e with
    s := if e.pos.val > 0 then absorbBlock c e.s e.buf else e.s
    buf := Block.zero
    pos := 0 }

/-- `takeByte` of each byte of a beat, in order (R102, R165). -/
def takeBytes (c : Config) (e : Engine) (bytes : List Byte) : Engine := bytes.foldl (takeByte c) e

/-- `8 * LEN` as it is added to a length counter, modulo `2^64` (R27). -/
def bitCount (len : Nat) : BitVec 64 := BitVec.ofNat 64 (8 * len)

/-- `AD`: take the next 0 to 16 bytes of the associated data (R102). -/
def execAd (len : Nat) (s : State) : Host.Outcome State Fault Refusal :=
  if s.eng.phase.takesAd = false then s.raise .phaseErr
  else if len > blockBytes then s.raise .invalidLength
  else
    let e := takeBytes config s.eng (s.din.first len)
    s.accept { e with adbits := e.adbits + bitCount len, phase := .absorbingAd } []

end Sys2Proof.Machine
end

