-- ==== Sys2Proof/Machine/CryptCore.lean ====
section
/-!
DEFINITION. CryptCore: the key-stream extractor and the `ENC` and `DEC` commands of spec/43_cryptcore.md R110 to R112.
-/

namespace Sys2Proof.Machine

/-- `keystream(S) = (S[2] & S[3]) ^ S[5] ^ S[4] ^ S[1]` (R110). -/
def keystream (S : SixBlocks) : Block :=
  xorBlock (xorBlock (xorBlock (andBlock S.s2 S.s3) S.s5) S.s4) S.s1

/-- One payload byte: the output is the input XOR the key-stream byte at `POS`, taken before the Block may be
absorbed; the plaintext byte, the input when encrypting and the output when decrypting, goes to `takeByte`
(R111, R112, R115). -/
def cryptByte (c : Config) (d : Dir) (e : Engine) (b : Byte) : Byte × Engine :=
  let out := b ^^^ (keystream e.s).byte e.pos
  let plain :=
    match d with
    | .encrypt => b
    | .decrypt => out
  (out, takeByte c e plain)

/-- The bytes of a beat in order: the output bytes and the engine after them (R111, R112). -/
def cryptBytes (c : Config) (d : Dir) (e : Engine) (bytes : List Byte) : List Byte × Engine :=
  match bytes with
  | [] => ([], e)
  | b :: rest =>
    let here := cryptByte c d e b
    let after := cryptBytes c d here.2 rest
    (here.1 :: after.1, after.2)

/-- The first payload command of an invocation ends the associated data (R101, R111, R112). -/
def beginPayload (c : Config) (e : Engine) : Engine :=
  if e.phase = .processingPayload then e else flushTail c e

/-- The common part of `ENC` and `DEC`, once the direction to check is known (R111, R112). -/
def cryptBeat (d : Dir) (len : Nat) (s : State) : Host.Outcome State Fault Refusal :=
  if s.eng.phase.isOpen = false then s.raise .phaseErr
  else if s.eng.dir ≠ d then s.raise .phaseErr
  else if len > blockBytes then s.raise .invalidLength
  else
    let r := cryptBytes config d (beginPayload config s.eng) (s.din.first len)
    s.accept { r.2 with msgbits := r.2.msgbits + bitCount len, phase := .processingPayload } r.1

/-- `ENC`: encrypt the next 0 to 16 bytes of plaintext (R111). -/
def execEnc (len : Nat) (s : State) : Host.Outcome State Fault Refusal := cryptBeat .encrypt len s

/-- `DEC`: decrypt the next 0 to 16 bytes of ciphertext (R112). -/
def execDec (len : Nat) (s : State) : Host.Outcome State Fault Refusal := cryptBeat .decrypt len s

end Sys2Proof.Machine
end

