-- ==== Sys2Proof/Machine/Finalizer.lean ====
section
/-!
DEFINITION. Finalizer and TagVerifier: the `FINAL_EMIT` and `FINAL_VERIFY` commands of
spec/44_finalizer_verifier.md R120 to R123.
-/

namespace Sys2Proof.Machine

/-- The length block: associated-data bits in word 0, payload bits in word 1 (R120). -/
def lengthBlock (adbits msgbits : BitVec 64) : Block := blockOfWords adbits msgbits

/-- The XOR of all six Blocks (R120). -/
def xorAll (S : SixBlocks) : Block :=
  xorBlock (xorBlock (xorBlock (xorBlock (xorBlock S.s0 S.s1) S.s2) S.s3) S.s4) S.s5

/-- The State after the seven absorptions of `t = lenblk ^ S[3]`, `t` formed once from the `S[3]` on entry (R120). -/
def finalMix (c : Config) (S : SixBlocks) (adbits msgbits : BitVec 64) : SixBlocks :=
  let t := xorBlock (lengthBlock adbits msgbits) S.s3
  repeatTimes finalRounds (fun T => absorbBlock c T t) S

/-- `finalize(S, adbits, msgbits)`: the mixed State and `derived` (R120). -/
def finalize (c : Config) (S : SixBlocks) (adbits msgbits : BitVec 64) : SixBlocks × Block :=
  let S' := finalMix c S adbits msgbits
  (S', xorAll S')

/-- `flushTail()`, then `finalize` on the registers, `PHASE` transiently `FINALIZED`; and `derived`
(R24, R121, R123). -/
def finishStream (c : Config) (e : Engine) : Engine × Block :=
  let f := flushTail c e
  let r := finalize c f.s f.adbits f.msgbits
  ({ f with s := r.1, phase := .finalized }, r.2)

/-- `FINAL_EMIT`: end an encrypting invocation and return the tag (R121). -/
def execFinalEmit (s : State) : Host.Outcome State Fault Refusal :=
  if s.eng.phase.isOpen = false then s.raise .phaseErr
  else if s.eng.dir ≠ .encrypt then s.raise .phaseErr
  else
    let r := finishStream config s.eng
    let acc := xorBlock Block.zero r.2
    let tag := acc.toList.take s.eng.taglen.toNat
    s.accept { clearInvocation r.1 with phase := .tagEmitted } tag

/-- `isZero(ACC, n)`: OR all the byte differences from the zero Block over the first `n` bytes, then one
reduction (R122). -/
def isZero (acc : Block) (n : Nat) : Bool :=
  (acc.toList.take n).foldl (fun diff b => diff ||| (b ^^^ 0x00)) 0x00 == 0x00

/-- `FINAL_VERIFY`: end a decrypting invocation and check the tag; `AUTH_FAIL` ends and clears it too (R123, R148). -/
def execFinalVerify (len : Nat) (s : State) : Host.Outcome State Fault Refusal :=
  if s.eng.phase.isOpen = false then s.raise .phaseErr
  else if s.eng.dir ≠ .decrypt then s.raise .phaseErr
  else if len ≠ s.eng.taglen.toNat then s.raise .invalidLength
  else
    let r := finishStream config s.eng
    let acc := xorBlock (zeropad (s.din.first s.eng.taglen.toNat)) r.2
    if isZero acc s.eng.taglen.toNat then
      .next (s.finish { clearInvocation r.1 with phase := .verified } .ok [])
    else
      .next (s.finish { clearInvocation r.1 with phase := .authFailed } .authFail [])

end Sys2Proof.Machine
end

