-- ==== Sys2Proof/Machine/SetupControl.lean ====
section
/-!
DEFINITION. Setup and control: the `SETKEY`, `SETTAGLEN`, `ABORT` and `STATUS` commands of
spec/45_setup_control.md R130 to R133.
-/

namespace Sys2Proof.Machine

/-- `SETKEY`: load the 32-byte key (R130). -/
def execSetkey (len : Nat) (s : State) : Host.Outcome State Fault Refusal :=
  if s.eng.phase.isBetween = false then s.raise .phaseErr
  else if len ≠ keyBytes then s.raise .invalidKeyLength
  else s.accept { s.eng with k0 := s.din.firstBlock, k1 := s.din.secondBlock, keyv := true } []

/-- `SETTAGLEN`: set the tag length (R131). -/
def execSettaglen (val : Nat) (s : State) : Host.Outcome State Fault Refusal :=
  if s.eng.phase.isBetween = false then s.raise .phaseErr
  else if val < tagMin ∨ val > tagMax then s.raise .invalidTagLength
  else s.accept { s.eng with taglen := BitVec.ofNat 5 val } []

/-- `ABORT`: discard the invocation and return to `IDLE`, in every phase (R132). -/
def execAbort (s : State) : Host.Outcome State Fault Refusal :=
  s.accept { clearInvocation s.eng with phase := .idle } []

/-- `STATUS`: report the response word and change no register (R133). -/
def execStatus (s : State) : Host.Outcome State Fault Refusal :=
  s.accept s.eng []

end Sys2Proof.Machine
end

