-- ==== Sys2Proof/Machine/Dispatch.lean ====
section
/-!
DEFINITION. What each command does: one arm per row of spec/30_encoding.md R63, each a call of its meaning.
-/

namespace Sys2Proof.Machine

def exec (i : Instr) (s : State) : Host.Outcome State Fault Refusal :=
  match i with
  | .setkey len => Sys2Proof.Machine.execSetkey len s
  | .settaglen val => Sys2Proof.Machine.execSettaglen val s
  | .init len dir => Sys2Proof.Machine.execInit len dir s
  | .ad len => Sys2Proof.Machine.execAd len s
  | .enc len => Sys2Proof.Machine.execEnc len s
  | .dec len => Sys2Proof.Machine.execDec len s
  | .finalEmit => Sys2Proof.Machine.execFinalEmit s
  | .finalVerify len => Sys2Proof.Machine.execFinalVerify len s
  | .abort => Sys2Proof.Machine.execAbort s
  | .status => Sys2Proof.Machine.execStatus s

end Sys2Proof.Machine
end

