-- ==== Sys2Proof/Machine/Step.lean ====
section
/-!
DEFINITION. One step: the engine takes the host's next input (spec/20_memory.md R49, spec/70_reset_and_hazards.md R160).
-/

namespace Sys2Proof.Machine

/-- One step. A command packet is decoded and executed, or answered `ILLEGAL_CMD` (R64, R149); the reset event resets
(R160); with nothing presented the engine stays as it is (R16, assumption log 5). -/
def step (s : State) : Host.Outcome State Fault Refusal :=
  match s.fetch with
  | none => .next s
  | some (.reset, s') => .next s'.applyReset
  | some (.command p, s') =>
    match decode p.cmd with
    | .ok i => exec i (s'.present p)
    | .error why => (s'.present p).refuseIllegal why

/-- `s` with the command word `w` presented as the very next input, `DIN` zero (assumption log 7). -/
def State.withFetchWord (s : State) (nbits w : Nat) : State :=
  s.presentFirst (.command (wordPacket nbits w))

end Sys2Proof.Machine
end

