-- ==== Sys2Proof/Machine/Assembler.lean ====
section
/-!
DEFINITION. The host's side of the command port: the textual forms of spec/30_encoding.md R68 as structured lines,
and the pseudo-commands of R69 as their expansions. None has an encoding of its own.
-/

namespace Sys2Proof.Machine

/-- The packet of a command: its word, and `bytes` on the first lanes of `DIN`, the rest zero (R68). -/
def packetOf (i : Instr) (bytes : List Byte) : CommandPacket := { cmd := encode i, din := dataInOf bytes }

/-- A line of R68 after its text is read: the mnemonic, the bytes of `<hex>`, and `/<n>` where it overrides `LEN`. -/
inductive AsmLine where
  | setkey (bytes : List Byte) (len : Option Nat)
  | settaglen (n : Nat)
  | initEnc (bytes : List Byte) (len : Option Nat)
  | initDec (bytes : List Byte) (len : Option Nat)
  | ad (bytes : List Byte) (len : Option Nat)
  | enc (bytes : List Byte) (len : Option Nat)
  | dec (bytes : List Byte) (len : Option Nat)
  | finalEmit
  | finalVerify (bytes : List Byte) (len : Option Nat)
  | abort
  | status
  /-- `.cmd <word> <hex>`: the word as written -/
  | cmd (word : Word) (bytes : List Byte)
deriving DecidableEq, Repr

/-- The packet a line stands for: `LEN` is the number of bytes given, or the override (R68). -/
def AsmLine.packet (l : AsmLine) : CommandPacket :=
  match l with
  | .setkey bytes len => packetOf (.setkey (len.getD bytes.length)) bytes
  | .settaglen n => packetOf (.settaglen n) []
  | .initEnc bytes len => packetOf (.init (len.getD bytes.length) .encrypt) bytes
  | .initDec bytes len => packetOf (.init (len.getD bytes.length) .decrypt) bytes
  | .ad bytes len => packetOf (.ad (len.getD bytes.length)) bytes
  | .enc bytes len => packetOf (.enc (len.getD bytes.length)) bytes
  | .dec bytes len => packetOf (.dec (len.getD bytes.length)) bytes
  | .finalEmit => packetOf .finalEmit []
  | .finalVerify bytes len => packetOf (.finalVerify (len.getD bytes.length)) bytes
  | .abort => packetOf .abort []
  | .status => packetOf .status []
  | .cmd word bytes => { cmd := word, din := dataInOf bytes }

/-- The beats of `AD*`, `ENC*`, `DEC*`: sixteen bytes each, then the `n mod 16` left over when there are any (R69). -/
def starBeats (bytes : List Byte) : List (List Byte) :=
  let q := bytes.length / 16
  (List.range q).map (fun k => (bytes.drop (16 * k)).take 16)
    ++ (if bytes.length % 16 = 0 then [] else [bytes.drop (16 * q)])

/-- The beats of `AD*[c1,c2,...]`: exactly the lengths listed (R69). -/
def listedBeats (lens : List Nat) (bytes : List Byte) : List (List Byte) :=
  match lens with
  | [] => []
  | n :: rest => bytes.take n :: listedBeats rest (bytes.drop n)

/-- One `AD` for each beat (R69). -/
def adPackets (beats : List (List Byte)) : List CommandPacket := beats.map fun b => packetOf (.ad b.length) b

/-- One `ENC` for each beat (R69). -/
def encPackets (beats : List (List Byte)) : List CommandPacket := beats.map fun b => packetOf (.enc b.length) b

/-- One `DEC` for each beat (R69). -/
def decPackets (beats : List (List Byte)) : List CommandPacket := beats.map fun b => packetOf (.dec b.length) b

/-- `SEAL` with the beats of the associated data and of the payload given (R69). -/
def sealBeats (key nonce : List Byte) (ad msg : List (List Byte)) : List CommandPacket :=
  [packetOf (.setkey key.length) key, packetOf (.init nonce.length .encrypt) nonce]
    ++ adPackets ad ++ encPackets msg ++ [packetOf .finalEmit []]

/-- `OPEN` with the beats of the associated data and of the ciphertext given (R69). -/
def openBeats (key nonce : List Byte) (ad ct : List (List Byte)) (tag : List Byte) : List CommandPacket :=
  [packetOf (.setkey key.length) key, packetOf (.init nonce.length .decrypt) nonce]
    ++ adPackets ad ++ decPackets ct ++ [packetOf (.finalVerify tag.length) tag]

/-- `SEAL <key> <nonce> <ad> <msg>` (R69). -/
def sealPackets (key nonce ad msg : List Byte) : List CommandPacket :=
  sealBeats key nonce (starBeats ad) (starBeats msg)

/-- `OPEN <key> <nonce> <ad> <ct> <tag>` (R69). -/
def openPackets (key nonce ad ct tag : List Byte) : List CommandPacket :=
  openBeats key nonce (starBeats ad) (starBeats ct) tag

end Sys2Proof.Machine
end

