-- ==== Sys2Proof/Safety.lean ====
section
/-!
DEFINITION. The terms in which statements are made: the phases of spec/10_state.md R24, what a response reports
(R66), the invariants of R35, and the source's whole-string forms of absorption and encryption (R103, R113).
-/

namespace Sys2Proof.Machine

/-- The phases between invocations, as R24 lists them. -/
def BetweenInvocations (p : Phase) : Prop := p = .idle ∨ p = .tagEmitted ∨ p = .verified ∨ p = .authFailed

/-- The phases with an invocation open, as R24 lists them. -/
def InvocationOpen (p : Phase) : Prop := p = .initialized ∨ p = .absorbingAd ∨ p = .processingPayload

/-- The phases in which the table of R25 has no `PE` for the command, the `DIR` conditions apart. `FINALIZED` has no
column there: no command but `ABORT` and `STATUS` is allowed in it. -/
def AllowedInPhase (i : Instr) (p : Phase) : Prop :=
  match i with
  | .setkey _ => BetweenInvocations p
  | .settaglen _ => BetweenInvocations p
  | .init _ _ => BetweenInvocations p
  | .ad _ => p = .initialized ∨ p = .absorbingAd
  | .enc _ => InvocationOpen p
  | .dec _ => InvocationOpen p
  | .finalEmit => InvocationOpen p
  | .finalVerify _ => InvocationOpen p
  | .abort => True
  | .status => True

/-- `ENC` and `FINAL_EMIT` need `DIR = 0`, `DEC` and `FINAL_VERIFY` need `DIR = 1` (R25, R26). -/
def AllowedInDir (i : Instr) (d : Dir) : Prop :=
  match i with
  | .setkey _ => True
  | .settaglen _ => True
  | .init _ _ => True
  | .ad _ => True
  | .enc _ => d = .encrypt
  | .dec _ => d = .decrypt
  | .finalEmit => d = .encrypt
  | .finalVerify _ => d = .decrypt
  | .abort => True
  | .status => True

/-- Only `INIT` needs a key of its own (R144). -/
def KeyPresent (i : Instr) (keyv : Bool) : Prop :=
  match i with
  | .setkey _ => True
  | .settaglen _ => True
  | .init _ _ => keyv = true
  | .ad _ => True
  | .enc _ => True
  | .dec _ => True
  | .finalEmit => True
  | .finalVerify _ => True
  | .abort => True
  | .status => True

/-- The lengths and values a command accepts (R145, R146, R147). -/
def OperandAccepted (i : Instr) (taglen : BitVec 5) : Prop :=
  match i with
  | .setkey len => len = 32
  | .settaglen val => 8 ≤ val ∧ val ≤ 16
  | .init len _ => len = 32
  | .ad len => len ≤ 16
  | .enc len => len ≤ 16
  | .dec len => len ≤ 16
  | .finalEmit => True
  | .finalVerify len => len = taglen.toNat
  | .abort => True
  | .status => True

/-- Every check of R149 passes, so the command runs. -/
def Runs (i : Instr) (e : Engine) : Prop :=
  AllowedInPhase i e.phase ∧ AllowedInDir i e.dir ∧ KeyPresent i e.keyv ∧ OperandAccepted i e.taglen

/-- The register fields of a response are those of the engine `e`, and its reserved bits are zero (R66). -/
structure Response.Reports (r : Response) (e : Engine) : Prop where
  phase : r.phase = e.phase.code
  keyv : r.keyv = e.keyv
  taglen : r.taglen = e.taglen
  dir : r.dir = true ↔ e.dir = .decrypt
  reserved : r.reservedZero = true

/-- `t` is `s` after one command that answered with the code `err` of R141 and the output bytes `bytes`: one response
is given, it reports the registers after the command, its lanes beyond `OLEN` are zero, and the other ports stay
(R46, R66). -/
structure Answered (s t : State) (err : Nat) (bytes : List Byte) : Prop where
  din : t.din = s.din
  pending : t.pending = s.pending
  response : ∃ r, t.responses = s.responses ++ [r] ∧ r.err = err ∧ r.olen = bytes.length ∧
    (∀ j : Fin 16, r.dout.byte j = bytes.getD j.val 0) ∧ r.Reports t.eng

/-- `t` is `s` after a refused command: the error is answered without data and no register is written (R140). -/
structure Refused (s t : State) (err : Nat) : Prop where
  answered : Answered s t err []
  unchanged : t.eng = s.eng

/-- The invariants (a) to (j) of R35; (b) holds by the type of `pos`. (h) and (i) need no exception for a wrapped
counter, since `2^64 / 8` is a multiple of sixteen. -/
structure Engine.Inv (e : Engine) : Prop where
  /-- (a) -/
  taglen_range : 8 ≤ e.taglen.toNat ∧ e.taglen.toNat ≤ 16
  /-- (c) -/
  buf_padded : ∀ j : Fin 16, e.pos ≤ j → e.buf.byte j = 0
  /-- (d) -/
  not_transient : e.phase ≠ .finalized
  /-- (e) -/
  cleared : BetweenInvocations e.phase →
    e.s = SixBlocks.zero ∧ e.buf = Block.zero ∧ e.pos = 0 ∧ e.adbits = 0 ∧ e.msgbits = 0 ∧ e.dir = .encrypt
  /-- (f) -/
  keyed : InvocationOpen e.phase → e.keyv = true
  /-- (g) -/
  fresh : e.phase = .initialized → e.pos = 0 ∧ e.adbits = 0 ∧ e.msgbits = 0
  /-- (h) -/
  absorbing : e.phase = .absorbingAd → e.msgbits = 0 ∧ e.pos.val = e.adbits.toNat / 8 % 16
  /-- (i) -/
  processing : e.phase = .processingPayload → e.pos.val = e.msgbits.toNat / 8 % 16
  /-- (j) -/
  whole_bytes : e.adbits.toNat % 8 = 0 ∧ e.msgbits.toNat % 8 = 0

/-- What every response looks like (R46, R66, R141): a code 0 to 7, never phase 4, at most sixteen bytes, a legal
tag length, reserved bits and lanes beyond `OLEN` zero. -/
structure Response.Good (r : Response) : Prop where
  err_range : r.err ≤ 7
  phase_seen : r.phase ≠ 4
  olen_range : r.olen ≤ 16
  taglen_range : 8 ≤ r.taglen.toNat ∧ r.taglen.toNat ≤ 16
  reserved : r.reservedZero = true
  lanes : ∀ j : Fin 16, r.olen ≤ j.val → r.dout.byte j = 0

/-- The machine between two commands: R35 holds of the registers, and every response given was good. -/
structure State.Inv (s : State) : Prop where
  eng : s.eng.Inv
  responses : ∀ r ∈ s.responses, r.Good

/-- A safe run never stops: each of `k` steps answers a next state (R16, R172). -/
def SafeRun (k : Nat) (s : State) : Prop := ∃ t, Sys2Proof.core.run k s = .next t

/-- The word is one of the ten commands, by R64: `OP` is assigned and every bit its format marks "0" is 0. -/
def LegalWord (w : Word) : Prop :=
  w.toNat % 256 ∈ [0x07, 0x09, 0x0A] ∧ w.toNat / 2 ^ 8 = 0 ∨
  w.toNat % 256 ∈ [0x01, 0x02, 0x04, 0x05, 0x06, 0x08] ∧ w.toNat / 2 ^ 16 = 0 ∨
  w.toNat % 256 = 0x03 ∧ w.toNat / 2 ^ 17 = 0

/-- The code of R141 for a length or value that a command does not accept (R145, R146, R147). -/
def lengthCode (i : Instr) : Nat :=
  match i with
  | .setkey _ => 4
  | .settaglen _ => 5
  | .init _ _ => 6
  | .ad _ => 6
  | .enc _ => 6
  | .dec _ => 6
  | .finalEmit => 6
  | .finalVerify _ => 6
  | .abort => 6
  | .status => 6

/-- How many bytes of `DIN` are the command's operand (R46, R62, R123). -/
def operandBytes (i : Instr) (taglen : BitVec 5) : Nat :=
  match i with
  | .setkey len => len
  | .settaglen _ => 0
  | .init len _ => len
  | .ad len => len
  | .enc len => len
  | .dec len => len
  | .finalEmit => 0
  | .finalVerify _ => taglen.toNat
  | .abort => 0
  | .status => 0

/-- How many bytes an accepted command returns (R67). -/
def outputLength (i : Instr) (taglen : BitVec 5) : Nat :=
  match i with
  | .setkey _ => 0
  | .settaglen _ => 0
  | .init _ _ => 0
  | .ad _ => 0
  | .enc len => len
  | .dec len => len
  | .finalEmit => taglen.toNat
  | .finalVerify _ => 0
  | .abort => 0
  | .status => 0

/-- The phases an accepted command may lead to from `p` (the table of R25). -/
def NextPhase (i : Instr) (p q : Phase) : Prop :=
  match i with
  | .setkey _ => q = p
  | .settaglen _ => q = p
  | .init _ _ => q = .initialized
  | .ad _ => q = .absorbingAd
  | .enc _ => q = .processingPayload
  | .dec _ => q = .processingPayload
  | .finalEmit => q = .tagEmitted
  | .finalVerify _ => q = .verified ∨ q = .authFailed
  | .abort => q = .idle
  | .status => q = p

/-- The invocation registers as `clearInvocation` leaves them (R32), with the phase `p`; the Context stays. -/
def Engine.discarded (e : Engine) (p : Phase) : Engine :=
  { s := SixBlocks.zero, k0 := e.k0, k1 := e.k1, keyv := e.keyv, taglen := e.taglen, phase := p, dir := .encrypt
    adbits := 0, msgbits := 0, buf := Block.zero, pos := 0 }

/-! One beat of a stream, whole. -/

/-- The bytes waiting in the partial-block buffer, `BUF.byte[0..POS)` (R28). -/
def heldBytes (e : Engine) : List Byte := e.buf.toList.take e.pos.val

/-- `BUF.byte[j] = 0x00` for every `j >= POS` (R28, R35(c)). -/
def TailPadded (e : Engine) : Prop := ∀ j : Fin 16, e.pos ≤ j → e.buf.byte j = 0

/-- The State after the waiting bytes, if any, were absorbed zero-padded (R101). -/
def flushedBlocks (c : Config) (e : Engine) : SixBlocks := if e.pos = 0 then e.s else absorbBlock c e.s e.buf

/-- The stream registers after `data`, the held bytes and the new ones together, at most 31 bytes, met the State
`S`: a full Block is absorbed, the rest waits zero-padded (R100). -/
def Engine.streamed (c : Config) (e : Engine) (S : SixBlocks) (data : List Byte) : Engine :=
  { e with
    s := if data.length < 16 then S else absorbBlock c S (zeropad (data.take 16))
    buf := zeropad (if data.length < 16 then data else data.drop 16)
    pos := Fin.ofNat 16 data.length }

/-- The State a payload beat starts from: the associated data is ended first, unless payload was already taken (R111). -/
def payloadStart (c : Config) (e : Engine) : SixBlocks :=
  if e.phase = .processingPayload then e.s else flushedBlocks c e

/-- The payload bytes already waiting when a beat starts (R111). -/
def payloadHeld (e : Engine) : List Byte := if e.phase = .processingPayload then heldBytes e else []

/-- The output of a payload beat that starts at position `p` of the Block whose State is `S`: input XOR key stream,
the bytes past the Block boundary under the key stream of the next State, which no message byte has reached yet
(R91, R111 corner cases (a) and (d)). -/
def beatOutput (c : Config) (S : SixBlocks) (p : Nat) (input : List Byte) : List Byte :=
  (List.range input.length).map fun j =>
    input.getD j 0 ^^^
      (keystream (if p + j < 16 then S else update c S)).byte (Fin.ofNat 16 (p + j))

/-- `derived` for the engine as it stands, its tail flushed (R120, R121, R123). -/
def derivedOf (c : Config) (e : Engine) : Block := (finalize c (flushedBlocks c e) e.adbits e.msgbits).2

/-! The source's forms over whole strings. -/

/-- The whole Blocks of a byte string, in stream order: `A[0..16)`, `A[16..32)`, ... (R103, R113). -/
def wholeBlocks (bytes : List Byte) : List Block :=
  (List.range (bytes.length / 16)).map fun k => zeropad ((bytes.drop (16 * k)).take 16)

/-- The bytes left over, `A[16q..n)` (R103, R113). -/
def leftOver (bytes : List Byte) : List Byte := bytes.drop (16 * (bytes.length / 16))

/-- `absorbBlock` of each Block in order. -/
def absorbAll (c : Config) (S : SixBlocks) (blocks : List Block) : SixBlocks := blocks.foldl (absorbBlock c) S

/-- `processAssociatedData(S, A)`: the whole Blocks, then the zero-padded tail when there is one (R103). -/
def processWhole (c : Config) (S : SixBlocks) (bytes : List Byte) : SixBlocks :=
  let S' := absorbAll c S (wholeBlocks bytes)
  if (leftOver bytes).length = 0 then S' else absorbBlock c S' (zeropad (leftOver bytes))

/-- The State that stream byte `n` of a payload meets: the one that has absorbed the `floor(n / 16)` earlier
Blocks of the plaintext `M` (R111 corner case (a), R113). -/
def stateAt (c : Config) (S : SixBlocks) (M : List Byte) (n : Nat) : SixBlocks :=
  absorbAll c S ((wholeBlocks M).take (n / 16))

/-- The ciphertext of `M` from `S`: byte `n` is `M[n]` XOR byte `n mod 16` of the key stream of `stateAt n`
(R111, R113). -/
def encryptWhole (c : Config) (S : SixBlocks) (M : List Byte) : List Byte :=
  (List.range M.length).map fun n =>
    M.getD n 0 ^^^ (keystream (stateAt c S M n)).byte (Fin.ofNat 16 n)

/-- The Block `derived` of an invocation whose State is `S0` after `INIT`, for whole associated data and payload
(R103, R113, R120). -/
def tagWhole (c : Config) (S0 : SixBlocks) (ad msg : List Byte) : Block :=
  xorAll (finalMix c (processWhole c (processWhole c S0 ad) msg) (bitCount ad.length) (bitCount msg.length))

/-- The State after `INIT` under a 32-byte key and a 32-byte nonce (R92, R93). -/
def initWhole (c : Config) (key nonce : List Byte) : SixBlocks :=
  initState c (zeropad key) (zeropad (key.drop 16)) (zeropad nonce) (zeropad (nonce.drop 16))

/-- The output bytes of a list of responses, in order. -/
def outputBytes (rs : List Response) : List Byte := rs.flatMap Response.bytes

/-- The machine with the packets `ps` pending and nothing else. -/
def State.withPackets (s : State) (ps : List CommandPacket) : State := { s with pending := ps.map .command }

end Sys2Proof.Machine
end

