-- ==== Sys2Proof/Certificates/Slice0/Obligations.lean ====
section
/-!
DEFINITION. The statements about the engine, for the provers. Each docstring names the rule of spec/ it comes from.
-/

open Sys2Proof Sys2Proof.Machine

/-! Encoding. -/

/-- R61, R63, R65: decoding an encoded well-formed command gives it back, every operand at every value it admits. -/
def Obligations.DecodeOfEncodeIsIdentity : Prop :=
  ∀ i : Instr, i.WellFormed → decode (encode i) = .ok i

/-- R65: encoding is the inverse on legal words, and two different legal words decode to different commands. -/
def Obligations.EncodeOfDecodeIsIdentity : Prop :=
  ∀ (w : Word) (i : Instr), decode w = .ok i →
    i.WellFormed ∧ encode i = w ∧ ∀ w' : Word, decode w' = .ok i → w' = w

/-- R63: a word is a row's command exactly when the word under the row's mask is the row's pattern. -/
def Obligations.OpcodeMapDecidesTheCommand : Prop :=
  opcodeTable.map (fun r => (r.mnemonic, r.pattern.toNat, r.mask.toNat)) =
    [("SETKEY", 0x00000001, 0xFFFF00FF), ("SETTAGLEN", 0x00000002, 0xFFFF00FF), ("INIT", 0x00000003, 0xFFFE00FF),
     ("AD", 0x00000004, 0xFFFF00FF), ("ENC", 0x00000005, 0xFFFF00FF), ("DEC", 0x00000006, 0xFFFF00FF),
     ("FINAL_EMIT", 0x00000007, 0xFFFFFFFF), ("FINAL_VERIFY", 0x00000008, 0xFFFF00FF),
     ("ABORT", 0x00000009, 0xFFFFFFFF), ("STATUS", 0x0000000A, 0xFFFFFFFF)] ∧
  ∀ row ∈ opcodeTable, ∀ w : Word, (∃ i, decode w = .ok i ∧ i.row = row) ↔ w &&& row.mask = row.pattern

/-- R70: the encoding examples, and the response to `STATUS` straight after reset. -/
def Obligations.EncodingExamplesDecode : Prop :=
  decode 0x00002001 = .ok (.setkey 32) ∧ decode 0x00000C02 = .ok (.settaglen 12) ∧
  decode 0x00002003 = .ok (.init 32 .encrypt) ∧ decode 0x00012003 = .ok (.init 32 .decrypt) ∧
  decode 0x00000804 = .ok (.ad 8) ∧ decode 0x00001005 = .ok (.enc 16) ∧ decode 0x00000E06 = .ok (.dec 14) ∧
  decode 0x00000005 = .ok (.enc 0) ∧ decode 0x00000007 = .ok .finalEmit ∧
  decode 0x00001008 = .ok (.finalVerify 16) ∧ decode 0x00000009 = .ok .abort ∧ decode 0x0000000A = .ok .status ∧
  decode 0x00000000 = .error .unassignedOp ∧ decode 0x0000000B = .error .unassignedOp ∧
  decode 0x00000107 = .error .reservedBits ∧ decode 0x00011004 = .error .reservedBits ∧
  decode 0x00022003 = .error .reservedBits ∧
  ∃ t, step (State.reset.withFetchWord 32 0x0000000A) = .next t ∧
    t.responses = [{ rsp := 0x00100000, dout := Block.zero }]

/-! Steps, reset. -/

/-- R48, R49, R65: a step takes the host's oldest packet, puts its data on `DIN`, and runs the decoded command. -/
def Obligations.StepRunsDecodedCommand : Prop :=
  ∀ (s : State) (p : CommandPacket) (rest : List HostEvent) (i : Instr),
    s.pending = .command p :: rest → decode p.cmd = .ok i →
      i.WellFormed ∧ step s = exec i { s with din := p.din, pending := rest }

/-- R34: the reset value of every register. -/
def Obligations.ResetLeavesTheTable : Prop :=
  let e := State.reset.eng
  (∀ i, e.s.s0.byte i = 0 ∧ e.s.s1.byte i = 0 ∧ e.s.s2.byte i = 0 ∧ e.s.s3.byte i = 0 ∧ e.s.s4.byte i = 0 ∧
    e.s.s5.byte i = 0 ∧ e.k0.byte i = 0 ∧ e.k1.byte i = 0 ∧ e.buf.byte i = 0) ∧
  e.keyv = false ∧ e.taglen.toNat = 16 ∧ e.phase = .idle ∧ e.dir = .encrypt ∧ e.adbits = 0 ∧ e.msgbits = 0 ∧
  e.pos.val = 0

/-- R160: reset between commands gives every register its reset value and produces no response. That what the host
has pending stays is the model's choice (assumption log 6). -/
def Obligations.ResetEventRestoresEveryRegister : Prop :=
  ∀ (s : State) (rest : List HostEvent), s.pending = .reset :: rest →
    ∃ t, step s = .next t ∧ t.eng = State.reset.eng ∧ t.responses = s.responses ∧ t.pending = rest

/-- R16, R49: with no command presented the engine takes no step (the model's choice, assumption log 5). -/
def Obligations.EngineWaitsForACommand : Prop :=
  ∀ s : State, s.pending = [] → step s = .next s

/-- R142: an illegal word is answered `ILLEGAL_CMD` in every phase, with or without a key, state unchanged; no legal
word is. -/
def Obligations.IllegalWordsAnsweredIllegalCmd : Prop :=
  ∀ (s : State) (p : CommandPacket) (rest : List HostEvent), s.pending = .command p :: rest →
    let s' : State := { s with din := p.din, pending := rest }
    (¬ LegalWord p.cmd → ∃ t, step s = .next t ∧ Refused s' t 1) ∧
    (LegalWord p.cmd → ∃ t code bytes, step s = .next t ∧ Answered s' t code bytes ∧ code ≠ 1)

/-- R66, R172: every command packet, legal or not, is answered with exactly one response, which reports the registers
after the command; its reserved bits and its lanes beyond `OLEN` are zero. -/
def Obligations.EveryPacketAnsweredOnce : Prop :=
  ∀ (s : State) (p : CommandPacket) (rest : List HostEvent), s.pending = .command p :: rest →
    ∃ t code bytes, step s = .next t ∧ Answered { s with din := p.din, pending := rest } t code bytes ∧
      code ≤ 7 ∧ bytes.length ≤ 16

/-- R172: the engine never hangs: from every state every number of steps can be taken. -/
def Obligations.EveryRunIsSafe : Prop :=
  ∀ (k : Nat) (s : State), SafeRun k s

/-! Each command, where it completes. -/

/-- R130: `SETKEY` loads the key; an open invocation or a length other than 32 refuses it. -/
def Obligations.SetkeyLoadsTheKey : Prop :=
  ∀ (len : Nat) (s : State), ∃ t, exec (.setkey len) s = .next t ∧
    (BetweenInvocations s.eng.phase → len = 32 →
      Answered s t 0 [] ∧ t.eng = { s.eng with k0 := s.din.lo, k1 := s.din.hi, keyv := true }) ∧
    (¬ BetweenInvocations s.eng.phase → Refused s t 2) ∧
    (BetweenInvocations s.eng.phase → len ≠ 32 → Refused s t 4)

/-- R131: `SETTAGLEN` sets the tag length to a value in 8..16; an open invocation or another value refuses it. -/
def Obligations.SettaglenSetsTheLength : Prop :=
  ∀ (val : Nat) (s : State), ∃ t, exec (.settaglen val) s = .next t ∧
    (BetweenInvocations s.eng.phase → 8 ≤ val → val ≤ 16 →
      Answered s t 0 [] ∧ t.eng.taglen.toNat = val ∧ t.eng = { s.eng with taglen := t.eng.taglen }) ∧
    (¬ BetweenInvocations s.eng.phase → Refused s t 2) ∧
    (BetweenInvocations s.eng.phase → val < 8 ∨ 16 < val → Refused s t 5)

/-- R93: `INIT` discards the invocation registers, builds the State from key and nonce and fixes the direction; its
refusals in their order. -/
def Obligations.InitOpensAnInvocation : Prop :=
  ∀ (len : Nat) (dir : Dir) (s : State), ∃ t, exec (.init len dir) s = .next t ∧
    (BetweenInvocations s.eng.phase → s.eng.keyv = true → len = 32 →
      Answered s t 0 [] ∧
      t.eng = { s.eng.discarded .initialized with
        s := initState config s.eng.k0 s.eng.k1 s.din.lo s.din.hi, dir := dir }) ∧
    (¬ BetweenInvocations s.eng.phase → Refused s t 2) ∧
    (BetweenInvocations s.eng.phase → s.eng.keyv = false → Refused s t 3) ∧
    (BetweenInvocations s.eng.phase → s.eng.keyv = true → len ≠ 32 → Refused s t 6)

/-- R100, R102: `AD` joins its bytes to the waiting ones, absorbs the Block they complete, keeps the rest zero-padded,
and counts the bits; every other register stays. -/
def Obligations.AdTakesABeat : Prop :=
  ∀ (len : Nat) (s : State), s.eng.phase = .initialized ∨ s.eng.phase = .absorbingAd → len ≤ 16 → TailPadded s.eng →
    ∃ t, exec (.ad len) s = .next t ∧ Answered s t 0 [] ∧
      t.eng = { s.eng.streamed config s.eng.s (heldBytes s.eng ++ s.din.first len) with
        adbits := s.eng.adbits + BitVec.ofNat 64 (8 * len), phase := .absorbingAd }

/-- R111: `ENC` returns the input XOR the key stream and takes the input bytes as plaintext, after ending the
associated data where no payload was taken yet; every other register stays. -/
def Obligations.EncEncryptsABeat : Prop :=
  ∀ (len : Nat) (s : State), InvocationOpen s.eng.phase → s.eng.dir = .encrypt → len ≤ 16 → TailPadded s.eng →
    let S := payloadStart config s.eng
    let held := payloadHeld s.eng
    ∃ t, exec (.enc len) s = .next t ∧
      Answered s t 0 (beatOutput config S held.length (s.din.first len)) ∧
      t.eng = { s.eng.streamed config S (held ++ s.din.first len) with
        msgbits := s.eng.msgbits + BitVec.ofNat 64 (8 * len), phase := .processingPayload }

/-- R112: `DEC` returns the input XOR the key stream and takes the output bytes as plaintext; otherwise as `ENC`. -/
def Obligations.DecDecryptsABeat : Prop :=
  ∀ (len : Nat) (s : State), InvocationOpen s.eng.phase → s.eng.dir = .decrypt → len ≤ 16 → TailPadded s.eng →
    let S := payloadStart config s.eng
    let held := payloadHeld s.eng
    let out := beatOutput config S held.length (s.din.first len)
    ∃ t, exec (.dec len) s = .next t ∧ Answered s t 0 out ∧
      t.eng = { s.eng.streamed config S (held ++ out) with
        msgbits := s.eng.msgbits + BitVec.ofNat 64 (8 * len), phase := .processingPayload }

/-- R121: `FINAL_EMIT` returns the leading `TAGLEN` bytes of `derived`, discards the invocation, and keeps the Context. -/
def Obligations.FinalEmitReturnsTheTag : Prop :=
  ∀ s : State, InvocationOpen s.eng.phase → s.eng.dir = .encrypt →
    ∃ t, exec .finalEmit s = .next t ∧
      Answered s t 0 ((derivedOf config s.eng).toList.take s.eng.taglen.toNat) ∧
      t.eng = s.eng.discarded .tagEmitted

/-- R123, R148: `FINAL_VERIFY` verifies exactly when the received tag is the leading `TAGLEN` bytes of `derived`; on
both verdicts the invocation is discarded and no data is returned. -/
def Obligations.FinalVerifyComparesTheTag : Prop :=
  ∀ (len : Nat) (s : State), InvocationOpen s.eng.phase → s.eng.dir = .decrypt → len = s.eng.taglen.toNat →
    8 ≤ len → len ≤ 16 →
    ∃ t, exec (.finalVerify len) s = .next t ∧
      (s.din.first len = (derivedOf config s.eng).toList.take len →
        Answered s t 0 [] ∧ t.eng = s.eng.discarded .verified) ∧
      (s.din.first len ≠ (derivedOf config s.eng).toList.take len →
        Answered s t 7 [] ∧ t.eng = s.eng.discarded .authFailed)

/-- R132: `ABORT` discards the invocation and goes to `IDLE` from every phase; `K`, `KEYV`, `TAGLEN` are kept. -/
def Obligations.AbortDiscardsTheInvocation : Prop :=
  ∀ s : State, ∃ t, exec .abort s = .next t ∧ Answered s t 0 [] ∧ t.eng = s.eng.discarded .idle

/-- R133: `STATUS` is accepted in every phase, answers without data and changes no register. -/
def Obligations.StatusChangesNothing : Prop :=
  ∀ s : State, ∃ t, exec .status s = .next t ∧ Answered s t 0 [] ∧ t.eng = s.eng

/-! Errors. -/

/-- R143: in every phase that has a column in the table of R25, `PHASE_ERR` is the answer exactly to a command that
the table, or `DIR`, does not allow. -/
def Obligations.PhaseErrExactlyWhereNotAllowed : Prop :=
  ∀ (i : Instr) (s : State), s.eng.phase ≠ .finalized → ((∃ t, exec i s = .next t ∧ Refused s t 2) ↔
    ¬ (AllowedInPhase i s.eng.phase ∧ AllowedInDir i s.eng.dir))

/-- R144: `NO_KEY` is the answer exactly to an `INIT` between invocations while `KEYV = 0`. -/
def Obligations.NoKeyExactlyForInitWithoutKey : Prop :=
  ∀ (i : Instr) (s : State), (∃ t, exec i s = .next t ∧ Refused s t 3) ↔
    (∃ len dir, i = .init len dir) ∧ BetweenInvocations s.eng.phase ∧ s.eng.keyv = false

/-- R145: `INVALID_KEY_LENGTH` is the answer exactly to a `SETKEY` between invocations with `LEN != 32`. -/
def Obligations.InvalidKeyLengthExactly : Prop :=
  ∀ (i : Instr) (s : State), (∃ t, exec i s = .next t ∧ Refused s t 4) ↔
    ∃ len, i = .setkey len ∧ BetweenInvocations s.eng.phase ∧ len ≠ 32

/-- R146: `INVALID_TAG_LENGTH` is the answer exactly to a `SETTAGLEN` between invocations with `VAL` outside 8..16. -/
def Obligations.InvalidTagLengthExactly : Prop :=
  ∀ (i : Instr) (s : State), (∃ t, exec i s = .next t ∧ Refused s t 5) ↔
    ∃ val, i = .settaglen val ∧ BetweenInvocations s.eng.phase ∧ (val < 8 ∨ 16 < val)

/-- R147: `INVALID_LENGTH` is the answer exactly to a nonce not of 32 bytes, a beat of more than 16, a tag not of
`TAGLEN`, once the phase, direction and key checks have passed. -/
def Obligations.InvalidLengthExactly : Prop :=
  ∀ (i : Instr) (s : State), (∃ t, exec i s = .next t ∧ Refused s t 6) ↔
    AllowedInPhase i s.eng.phase ∧ AllowedInDir i s.eng.dir ∧
      ((∃ len dir, i = .init len dir ∧ s.eng.keyv = true ∧ len ≠ 32) ∨
       (∃ len, (i = .ad len ∨ i = .enc len ∨ i = .dec len) ∧ 16 < len) ∨
       ∃ len, i = .finalVerify len ∧ len ≠ s.eng.taglen.toNat)

/-- R149: the error reported is the first that applies in the order phase, direction, key, length; a command that
passes every check is answered `OK`, or, `FINAL_VERIFY` alone, `AUTH_FAIL`. In the unreachable phase `FINALIZED` the
phase check is the model's reading (assumption log 9). -/
def Obligations.FirstErrorIsReported : Prop :=
  ∀ (i : Instr) (s : State), ∃ t code bytes, exec i s = .next t ∧ Answered s t code bytes ∧
    (¬ AllowedInPhase i s.eng.phase → code = 2) ∧
    (AllowedInPhase i s.eng.phase → ¬ AllowedInDir i s.eng.dir → code = 2) ∧
    (AllowedInPhase i s.eng.phase → AllowedInDir i s.eng.dir → ¬ KeyPresent i s.eng.keyv → code = 3) ∧
    (AllowedInPhase i s.eng.phase → AllowedInDir i s.eng.dir → KeyPresent i s.eng.keyv →
      ¬ OperandAccepted i s.eng.taglen → code = lengthCode i) ∧
    (Runs i s.eng → code = 0 ∨ code = 7 ∧ ∃ len, i = .finalVerify len)

/-- R140: whatever the error, `AUTH_FAIL` apart, the refused packet writes no register and returns no data. -/
def Obligations.RefusedPacketsWriteNothing : Prop :=
  ∀ (s t : State) (p : CommandPacket) (rest : List HostEvent) (code : Nat) (bytes : List Byte),
    s.pending = .command p :: rest → step s = .next t →
    Answered { s with din := p.din, pending := rest } t code bytes → code ≠ 0 → code ≠ 7 →
      t.eng = s.eng ∧ bytes = []

/-- R25: the phase after every command, by the table; a refused command leaves it. The phase number never falls
within an invocation, and only `FINAL_EMIT`, `FINAL_VERIFY` and `ABORT` leave an open phase. (`FINALIZED`: assumption
log 9.) -/
def Obligations.PhaseFollowsTheTable : Prop :=
  ∀ (i : Instr) (s : State), ∃ t, exec i s = .next t ∧
    (Runs i s.eng → NextPhase i s.eng.phase t.eng.phase) ∧
    (¬ Runs i s.eng → t.eng.phase = s.eng.phase) ∧
    (InvocationOpen s.eng.phase → InvocationOpen t.eng.phase → s.eng.phase.code ≤ t.eng.phase.code) ∧
    (InvocationOpen s.eng.phase → ¬ InvocationOpen t.eng.phase →
      i = .finalEmit ∨ (∃ len, i = .finalVerify len) ∨ i = .abort)

/-- R67: how many bytes a command returns; the lanes beyond them are zero. -/
def Obligations.OutputLengthByCommand : Prop :=
  ∀ (i : Instr) (s : State), s.eng.taglen.toNat ≤ 16 →
    ∃ t code bytes, exec i s = .next t ∧ Answered s t code bytes ∧
      (Runs i s.eng → bytes.length = outputLength i s.eng.taglen) ∧ (¬ Runs i s.eng → bytes = [])

/-! Frames and whole-machine rules. -/

/-- R36: which registers a command may write, for every command and every state. -/
def Obligations.CommandsWriteOnlyTheirRegisters : Prop :=
  ∀ (i : Instr) (s t : State), exec i s = .next t →
    ((∀ len, i ≠ .setkey len) → t.eng.k0 = s.eng.k0 ∧ t.eng.k1 = s.eng.k1 ∧ t.eng.keyv = s.eng.keyv) ∧
    ((∀ val, i ≠ .settaglen val) → t.eng.taglen = s.eng.taglen) ∧
    ((∃ len, i = .setkey len) ∨ (∃ val, i = .settaglen val) ∨ i = .status →
      t.eng.s = s.eng.s ∧ t.eng.buf = s.eng.buf ∧ t.eng.pos = s.eng.pos ∧ t.eng.adbits = s.eng.adbits ∧
      t.eng.msgbits = s.eng.msgbits ∧ t.eng.dir = s.eng.dir ∧ t.eng.phase = s.eng.phase) ∧
    ((∃ len, i = .ad len) → t.eng.msgbits = s.eng.msgbits ∧ t.eng.dir = s.eng.dir) ∧
    ((∃ len, i = .enc len ∨ i = .dec len) → t.eng.adbits = s.eng.adbits ∧ t.eng.dir = s.eng.dir)

/-- R22, R23: over every step, `K` and `KEYV` change only by a successful `SETKEY` and by reset, `TAGLEN` only by a
successful `SETTAGLEN` and by reset. -/
def Obligations.ContextChangesOnlyBySetup : Prop :=
  ∀ s t : State, step s = .next t →
    (t.eng.k0 = s.eng.k0 ∧ t.eng.k1 = s.eng.k1 ∧ t.eng.keyv = s.eng.keyv ∨
      (∃ rest, s.pending = .reset :: rest) ∨
      ∃ p rest, s.pending = .command p :: rest ∧ p.cmd = 0x00002001 ∧ BetweenInvocations s.eng.phase ∧
        t.eng.k0 = p.din.lo ∧ t.eng.k1 = p.din.hi ∧ t.eng.keyv = true) ∧
    (t.eng.taglen = s.eng.taglen ∨
      (∃ rest, s.pending = .reset :: rest) ∨
      ∃ p rest val, s.pending = .command p :: rest ∧ decode p.cmd = .ok (.settaglen val) ∧
        BetweenInvocations s.eng.phase ∧ 8 ≤ val ∧ val ≤ 16 ∧ t.eng.taglen.toNat = val)

/-- R22: the key is read only by `INIT`: no other command's response, nor any register but `K`, depends on it. -/
def Obligations.KeyIsReadOnlyByInit : Prop :=
  ∀ (i : Instr) (s : State) (k0 k1 : Block), (∀ len dir, i ≠ .init len dir) →
    ∃ t t', exec i s = .next t ∧ exec i { s with eng := { s.eng with k0 := k0, k1 := k1 } } = .next t' ∧
      t'.responses = t.responses ∧
      { t'.eng with k0 := t.eng.k0, k1 := t.eng.k1 } = t.eng

/-- R33: the response to a command other than `ENC`, `DEC`, `FINAL_EMIT` and `FINAL_VERIFY` depends on no byte of `S`,
`K` or `BUF`, on no counter and not on `POS`. -/
def Obligations.NoReadbackOfSecrets : Prop :=
  ∀ (i : Instr) (s s' : State),
    (∀ len, i ≠ .enc len ∧ i ≠ .dec len ∧ i ≠ .finalVerify len) → i ≠ .finalEmit →
    s'.eng.phase = s.eng.phase → s'.eng.keyv = s.eng.keyv → s'.eng.taglen = s.eng.taglen → s'.eng.dir = s.eng.dir →
    s'.responses = s.responses →
    ∃ t t', exec i s = .next t ∧ exec i s' = .next t' ∧ t'.responses = t.responses

/-- R167: the lanes of `DIN` beyond a command's operand influence neither its response nor any register. -/
def Obligations.UnusedLanesAreIgnored : Prop :=
  ∀ (i : Instr) (s : State) (d : DataIn),
    d.first (operandBytes i s.eng.taglen) = s.din.first (operandBytes i s.eng.taglen) →
    ∃ t t', exec i s = .next t ∧ exec i { s with din := d } = .next t' ∧
      t'.eng = t.eng ∧ t'.responses = t.responses

/-- R35: the invariants hold at reset. -/
def Obligations.InvariantHoldsAtReset : Prop := State.reset.Inv

/-- R35: every step keeps the invariants, in every state that has them. -/
def Obligations.EveryStepKeepsTheInvariant : Prop :=
  ∀ s t : State, s.Inv → step s = .next t → t.Inv

/-- R35: the invariants hold at every command boundary, from reset onwards, whatever the host does. -/
def Obligations.InvariantHoldsAtEveryBoundary : Prop :=
  ∀ (events : List HostEvent) (k : Nat),
    ∃ t : State, Sys2Proof.core.run k { State.reset with pending := events } = .next t ∧ t.Inv

/-- R151: from every state `ABORT`; `SETKEY`; `INIT` reaches `INITIALIZED`. -/
def Obligations.AbortSetkeyInitRecovers : Prop :=
  ∀ (s : State) (key nonce : List Byte) (dir : Dir), key.length = 32 → nonce.length = 32 →
    ∃ t : State, Sys2Proof.core.run 3 (s.withPackets
        [packetOf .abort [], packetOf (.setkey 32) key, packetOf (.init 32 dir) nonce]) = .next t ∧
      t.eng.phase = .initialized ∧ t.eng.dir = dir ∧ t.eng.keyv = true ∧
      t.eng.s = initWhole config key nonce

/-- R94: the State after `INIT` depends on the key and the nonce alone, not on `TAGLEN`, `DIR` or what came before. -/
def Obligations.InitDependsOnKeyAndNonceOnly : Prop :=
  ∀ (s s' : State) (dir dir' : Dir), Runs (.init 32 dir) s.eng → Runs (.init 32 dir') s'.eng →
    s'.eng.k0 = s.eng.k0 → s'.eng.k1 = s.eng.k1 → s'.din = s.din →
    ∃ t t', exec (.init 32 dir) s = .next t ∧ exec (.init 32 dir') s' = .next t' ∧ t'.eng.s = t.eng.s

/-- R115: `ENC` and `DEC` with the same state and the same input bytes return the same output bytes. -/
def Obligations.EncAndDecReturnTheSameBytes : Prop :=
  ∀ (s : State) (len : Nat), InvocationOpen s.eng.phase → len ≤ 16 →
    ∃ t t' bytes,
      exec (.enc len) { s with eng := { s.eng with dir := .encrypt } } = .next t ∧
      exec (.dec len) { s with eng := { s.eng with dir := .decrypt } } = .next t' ∧
      Answered s t 0 bytes ∧ Answered s t' 0 bytes

/-- R124: the tag under `TAGLEN = n` is the first `n` bytes of the tag under `TAGLEN = 16`. -/
def Obligations.ShorterTagIsAPrefix : Prop :=
  ∀ (s : State) (n : BitVec 5), InvocationOpen s.eng.phase → s.eng.dir = .encrypt → 8 ≤ n.toNat → n.toNat ≤ 16 →
    ∃ t t' tag,
      exec .finalEmit { s with eng := { s.eng with taglen := 16 } } = .next t ∧ Answered s t 0 tag ∧
      exec .finalEmit { s with eng := { s.eng with taglen := n } } = .next t' ∧ Answered s t' 0 (tag.take n.toNat)

/-! Whole streams. -/

/-- R103: associated data sent in beats of any lengths leaves, once flushed, the State of the source's one-call form,
and counts its bits. -/
def Obligations.AdBeatsEqualOneCall : Prop :=
  ∀ (s : State) (beats : List (List Byte)), s.eng.Inv → s.eng.phase = .initialized → (∀ b ∈ beats, b.length ≤ 16) →
    ∃ t : State, Sys2Proof.core.run beats.length (s.withPackets (adPackets beats)) = .next t ∧
      (flushTail config t.eng).s = processWhole config s.eng.s beats.flatten ∧
      t.eng.adbits = BitVec.ofNat 64 (8 * beats.flatten.length)

/-- R113: a payload sent in beats of any lengths gives the source's block form: its ciphertext, its State once
flushed, and its bit count. -/
def Obligations.EncBeatsEqualBlockForm : Prop :=
  ∀ (s : State) (beats : List (List Byte)), s.eng.Inv →
    s.eng.phase = .initialized ∨ s.eng.phase = .absorbingAd → s.eng.dir = .encrypt → (∀ b ∈ beats, b.length ≤ 16) →
    ∃ (t : State) (rs : List Response),
      Sys2Proof.core.run beats.length (s.withPackets (encPackets beats)) = .next t ∧
      t.responses = s.responses ++ rs ∧
      outputBytes rs = encryptWhole config (flushTail config s.eng).s beats.flatten ∧
      (flushTail config t.eng).s = processWhole config (flushTail config s.eng).s beats.flatten ∧
      t.eng.msgbits = BitVec.ofNat 64 (8 * beats.flatten.length)

/-- R103, R113, R120, R121: `SEAL` of a message in any beats computes the algorithm of the source: the ciphertext of
the payload, then the leading `TAGLEN` bytes of its tag. -/
def Obligations.SealComputesTheAlgorithm : Prop :=
  ∀ (s : State) (key nonce : List Byte) (ad msg : List (List Byte)),
    s.Inv → BetweenInvocations s.eng.phase → key.length = 32 → nonce.length = 32 →
    (∀ b ∈ ad, b.length ≤ 16) → (∀ b ∈ msg, b.length ≤ 16) →
    let S := initWhole config key nonce
    ∃ (t : State) (rs : List Response),
      Sys2Proof.core.run (sealBeats key nonce ad msg).length (s.withPackets (sealBeats key nonce ad msg)) = .next t ∧
      t.responses = s.responses ++ rs ∧ t.eng.phase = .tagEmitted ∧
      outputBytes rs = encryptWhole config (processWhole config S ad.flatten) msg.flatten ++
        (tagWhole config S ad.flatten msg.flatten).toList.take s.eng.taglen.toNat

/-- R50: the output bytes and the verdict depend on the concatenated beats only, not on their lengths, in both
directions. -/
def Obligations.BeatLengthsDoNotMatter : Prop :=
  ∀ (s : State) (key nonce tag : List Byte) (ad ad' msg msg' : List (List Byte)),
    s.Inv → BetweenInvocations s.eng.phase → key.length = 32 → nonce.length = 32 →
    (∀ b ∈ ad ++ ad' ++ msg ++ msg', b.length ≤ 16) → ad'.flatten = ad.flatten → msg'.flatten = msg.flatten →
    tag.length = s.eng.taglen.toNat →
    (∃ (t t' : State) (rs rs' : List Response),
      Sys2Proof.core.run (sealBeats key nonce ad msg).length (s.withPackets (sealBeats key nonce ad msg)) = .next t ∧
      Sys2Proof.core.run (sealBeats key nonce ad' msg').length (s.withPackets (sealBeats key nonce ad' msg')) =
        .next t' ∧
      t.responses = s.responses ++ rs ∧ t'.responses = s.responses ++ rs' ∧
      outputBytes rs' = outputBytes rs ∧ t'.eng = t.eng) ∧
    (∃ (t t' : State) (rs rs' : List Response),
      Sys2Proof.core.run (openBeats key nonce ad msg tag).length (s.withPackets (openBeats key nonce ad msg tag)) =
        .next t ∧
      Sys2Proof.core.run (openBeats key nonce ad' msg' tag).length
        (s.withPackets (openBeats key nonce ad' msg' tag)) = .next t' ∧
      t.responses = s.responses ++ rs ∧ t'.responses = s.responses ++ rs' ∧
      outputBytes rs' = outputBytes rs ∧ t'.eng = t.eng)

/-- R114: a decrypting engine that stands where an encrypting one stood and is given its ciphertext, in any beats,
returns the plaintext, and both meet finalisation with the same State and counters. -/
def Obligations.DecryptionRecoversThePlaintext : Prop :=
  ∀ (s s' : State) (msg ct : List (List Byte)),
    s.eng.Inv → InvocationOpen s.eng.phase → s.eng.dir = .encrypt → s'.eng = { s.eng with dir := .decrypt } →
    (∀ b ∈ msg ++ ct, b.length ≤ 16) →
    ∃ (t : State) (rs : List Response),
      Sys2Proof.core.run msg.length (s.withPackets (encPackets msg)) = .next t ∧
      t.responses = s.responses ++ rs ∧
      (ct.flatten = outputBytes rs → ∃ (t' : State) (rs' : List Response),
        Sys2Proof.core.run ct.length (s'.withPackets (decPackets ct)) = .next t' ∧
        t'.responses = s'.responses ++ rs' ∧ outputBytes rs' = msg.flatten ∧
        (flushTail config t'.eng).s = (flushTail config t.eng).s ∧
        t'.eng.adbits = t.eng.adbits ∧ t'.eng.msgbits = t.eng.msgbits)

/-- R124, R125: round trip: what `SEAL` gives, `OPEN` verifies under the same tag length, in any beats and from any
state between invocations, and returns the message. -/
def Obligations.OpenVerifiesWhatSealGave : Prop :=
  ∀ (s s' : State) (key nonce : List Byte) (ad ad' msg ct : List (List Byte)) (tag : List Byte),
    s.Inv → s'.Inv → BetweenInvocations s.eng.phase → BetweenInvocations s'.eng.phase →
    s'.eng.taglen = s.eng.taglen → key.length = 32 → nonce.length = 32 →
    (∀ b ∈ ad ++ ad' ++ msg ++ ct, b.length ≤ 16) → ad'.flatten = ad.flatten →
    tag.length = s.eng.taglen.toNat →
    ∃ (t : State) (rs : List Response),
      Sys2Proof.core.run (sealBeats key nonce ad msg).length (s.withPackets (sealBeats key nonce ad msg)) = .next t ∧
      t.responses = s.responses ++ rs ∧
      (outputBytes rs = ct.flatten ++ tag →
        ∃ (t' : State) (rs' : List Response),
          Sys2Proof.core.run (openBeats key nonce ad' ct tag).length
            (s'.withPackets (openBeats key nonce ad' ct tag)) = .next t' ∧
          t'.responses = s'.responses ++ rs' ∧ t'.eng.phase = .verified ∧ outputBytes rs' = msg.flatten)

/-- R69: the beats of a `*` pseudo-command are the string, in order, in pieces of 1 to 16 bytes. -/
def Obligations.StarBeatsCoverTheString : Prop :=
  ∀ bytes : List Byte, (starBeats bytes).flatten = bytes ∧ ∀ b ∈ starBeats bytes, 1 ≤ b.length ∧ b.length ≤ 16

/-- R104: a stream of fewer than sixteen bytes and the same with one `0x00` more leave the same flushed State and
different bit counts. -/
def Obligations.PaddingIsToldApartByAdbits : Prop :=
  ∀ (s : State) (bytes : List Byte), s.eng.Inv → s.eng.phase = .initialized → 0 < bytes.length → bytes.length < 15 →
    ∃ t t' : State,
      exec (.ad bytes.length) { s with din := dataInOf bytes } = .next t ∧
      exec (.ad (bytes.length + 1)) { s with din := dataInOf (bytes ++ [0]) } = .next t' ∧
      (flushTail config t'.eng).s = (flushTail config t.eng).s ∧ t'.eng.adbits ≠ t.eng.adbits

/-! The functions of the datapath. -/

/-- R83: `SBOX` is the multiplicative inverse followed by the affine map with constant `0x63`. -/
def Obligations.SboxIsInverseThenAffine : Prop :=
  ∀ x : Byte, ∃ v : Byte, (x = 0 → v = 0) ∧ (x ≠ 0 → gmul x v = 1) ∧
    ∀ i : Fin 8, (sbox x).getLsbD i.val =
      ((v.getLsbD i.val ^^ v.getLsbD ((i.val + 4) % 8)) ^^ (v.getLsbD ((i.val + 5) % 8) ^^
        v.getLsbD ((i.val + 6) % 8)) ^^ (v.getLsbD ((i.val + 7) % 8) ^^ (0x63 : Byte).getLsbD i.val))

/-- R83 to R86: each byte of `aesRound(a, b)`, column by column, from the substituted bytes of the rotated rows. -/
def Obligations.AesRoundByteByByte : Prop :=
  ∀ (a b : Block) (c : Fin 4),
    let s (r : Nat) : Byte := sbox (a.byte (Fin.ofNat 16 (r + 4 * ((c.val + r) % 4))))
    let out (r : Nat) : Byte := (aesRound config a b).byte (Fin.ofNat 16 (4 * c.val + r))
    let old (r : Nat) : Byte := b.byte (Fin.ofNat 16 (4 * c.val + r))
    out 0 = (gmul (s 0) 2 ^^^ gmul (s 1) 3 ^^^ s 2 ^^^ s 3) ^^^ old 0 ∧
    out 1 = (s 0 ^^^ gmul (s 1) 2 ^^^ gmul (s 2) 3 ^^^ s 3) ^^^ old 1 ∧
    out 2 = (s 0 ^^^ s 1 ^^^ gmul (s 2) 2 ^^^ gmul (s 3) 3) ^^^ old 2 ∧
    out 3 = (gmul (s 0) 3 ^^^ s 1 ^^^ s 2 ^^^ gmul (s 3) 2) ^^^ old 3

/-- R86: `aesCore` is a permutation of the set of Blocks. -/
def Obligations.AesCoreIsAPermutation : Prop := Function.Bijective config.aesCore

/-- R90: the source's in-place order, index 5 down to 1 and then 0 from the captured carry, computes `update`. -/
def Obligations.InPlaceOrderComputesUpdate : Prop :=
  ∀ (c : Config) (S : SixBlocks),
    let carry := S.s5
    let A := { S with s5 := aesRound c S.s4 S.s5 }
    let B := { A with s4 := aesRound c A.s3 A.s4 }
    let C := { B with s3 := aesRound c B.s2 B.s3 }
    let D := { C with s2 := aesRound c C.s1 C.s2 }
    let E := { D with s1 := aesRound c D.s0 D.s1 }
    { E with s0 := aesRound c carry E.s0 } = update c S

/-- R90, corner cases, says that `update` is invertible because `aesCore` is a permutation. It is not: two States of
equal bytes `00` and `c5` have the same image (assumption log 11). Expected to fail. -/
def Obligations.UpdateIsInvertible : Prop := Function.Injective (update config)

/-- R91: for a fixed State the new `S[0]` is a bijection of the Block absorbed, and the other five do not depend on it. -/
def Obligations.AbsorbedBlockEntersS0Only : Prop :=
  ∀ (c : Config) (S : SixBlocks),
    Function.Bijective (fun msg => (absorbBlock c S msg).s0) ∧
    ∀ msg, { absorbBlock c S msg with s0 := (update c S).s0 } = update c S

/-- R92: `initialize` is the six starting Blocks and then exactly sixteen absorptions, `key[0]`, `key[1]`, `kn0`, `kn1`
four times over. -/
def Obligations.InitializeAbsorbsSixteenBlocks : Prop :=
  ∀ (c : Config) (k0 k1 n0 n1 : Block),
    let kn0 := xorBlock k0 n0
    let kn1 := xorBlock k1 n1
    let four := [k0, k1, kn0, kn1]
    initState c k0 k1 n0 n1 =
      absorbAll c ⟨kn0, kn1, c.const1, c.const0, xorBlock k0 c.const0, xorBlock k1 c.const1⟩
        (four ++ four ++ four ++ four)

/-- R120: the length block has the two bit counts as its little-endian words; `t` is formed once from the `S[3]` on
entry and absorbed seven times; `derived` is the XOR of the six Blocks after that. -/
def Obligations.FinalizeAbsorbsTheLengthsSevenTimes : Prop :=
  ∀ (c : Config) (S : SixBlocks) (adbits msgbits : BitVec 64), ∃ lenblk : Block,
    blockWord lenblk 0 = adbits ∧ blockWord lenblk 1 = msgbits ∧
    let S' := absorbAll c S (List.replicate 7 (xorBlock lenblk S.s3))
    (finalize c S adbits msgbits).1 = S' ∧
    ∀ i, (finalize c S adbits msgbits).2.byte i = S'.s0.byte i ^^^ S'.s1.byte i ^^^ S'.s2.byte i ^^^ S'.s3.byte i ^^^
      S'.s4.byte i ^^^ S'.s5.byte i

/-- R122: the zero-check holds exactly when the first `n` bytes are all zero; the others do not enter. -/
def Obligations.ZeroCheckReadsExactlyTheTagBytes : Prop :=
  ∀ (acc : Block) (n : Nat), isZero acc n = true ↔ ∀ j : Fin 16, j.val < n → acc.byte j = 0
end

