-- ==== Sys2Proof/Laws/Block.lean ====
section
/-!
SUPPORT. The small lemmas of Blocks: what each operation does byte by byte, and that a Block is its bytes.
-/

namespace Sys2Proof

@[simp] theorem Block.byte_ofFn (f : Fin 16 → Byte) (i : Fin 16) : (Block.ofFn f).byte i = f i := by
  fin_cases i <;> rfl

@[ext] theorem Block.ext_byte {a b : Block} (h : ∀ i, a.byte i = b.byte i) : a = b := by
  cases a; cases b
  have h' := fun (i : Fin 16) => h i
  simp only [Block.mk.injEq]
  exact ⟨h' 0, h' 1, h' 2, h' 3, h' 4, h' 5, h' 6, h' 7, h' 8, h' 9, h' 10, h' 11, h' 12, h' 13, h' 14, h' 15⟩

@[simp] theorem Block.ofFn_byte (b : Block) : Block.ofFn b.byte = b := by
  ext1 i
  simp

@[simp] theorem Block.byte_zero (i : Fin 16) : Block.zero.byte i = 0 := by
  simp [Block.zero]

@[simp] theorem Block.byte_setByte (b : Block) (i j : Fin 16) (v : Byte) :
    (b.setByte i v).byte j = if j = i then v else b.byte j := by
  simp [Block.setByte]

@[simp] theorem Block.length_toList (b : Block) : b.toList.length = 16 := rfl

theorem Block.getElem_toList (b : Block) (i : Nat) (h : i < b.toList.length) :
    b.toList[i] = b.byte ⟨i, by simpa using h⟩ := by
  have h16 : i < 16 := by simpa using h
  interval_cases i <;> rfl

theorem Block.getD_toList (b : Block) (i : Nat) (h : i < 16) : b.toList.getD i 0 = b.byte ⟨i, h⟩ := by
  rw [List.getD_eq_getElem _ _ (by simpa using h), Block.getElem_toList]

theorem Block.toList_inj {a b : Block} (h : a.toList = b.toList) : a = b := by
  ext1 i
  rw [← Block.getD_toList a i i.isLt, h, Block.getD_toList b i i.isLt]

namespace Machine

@[simp] theorem byte_xorBlock (a b : Block) (i : Fin 16) : (xorBlock a b).byte i = a.byte i ^^^ b.byte i := by
  simp [xorBlock]

@[simp] theorem byte_andBlock (a b : Block) (i : Fin 16) : (andBlock a b).byte i = a.byte i &&& b.byte i := by
  simp [andBlock]

@[simp] theorem byte_zeropad (l : List Byte) (i : Fin 16) : (zeropad l).byte i = l.getD i.val 0 := by
  simp [zeropad]

@[simp] theorem byte_subBytes (a : Block) (i : Fin 16) : (subBytes a).byte i = sbox (a.byte i) := by
  simp [subBytes]

theorem byte_shiftRows (a : Block) (i : Fin 16) :
    (shiftRows a).byte i = a.byte (Fin.ofNat 16 (i.val % 4 + 4 * ((i.val / 4 + i.val % 4) % 4))) := by
  simp [shiftRows]

theorem byte_aesRound (c : Config) (a b : Block) (i : Fin 16) :
    (aesRound c a b).byte i = (c.aesCore a).byte i ^^^ b.byte i := by
  simp [aesRound]

@[simp] theorem xorBlock_zero (a : Block) : xorBlock a Block.zero = a := by
  ext1 i; simp

@[simp] theorem zero_xorBlock (a : Block) : xorBlock Block.zero a = a := by
  ext1 i; simp

@[simp] theorem xorBlock_self (a : Block) : xorBlock a a = Block.zero := by
  ext1 i; simp

theorem xorBlock_assoc (a b c : Block) : xorBlock (xorBlock a b) c = xorBlock a (xorBlock b c) := by
  ext1 i; simp [BitVec.xor_assoc]

theorem xorBlock_comm (a b : Block) : xorBlock a b = xorBlock b a := by
  ext1 i; simp [BitVec.xor_comm]

@[simp] theorem zeropad_nil : zeropad [] = Block.zero := by
  ext1 i; simp

/-- A Block is the zero-padding of its own bytes. -/
@[simp] theorem zeropad_toList (b : Block) : zeropad b.toList = b := by
  ext1 i
  rw [byte_zeropad, Block.getD_toList b i i.isLt]

/-- Only the first sixteen bytes enter `zeropad`. -/
theorem zeropad_take (l : List Byte) : zeropad (l.take 16) = zeropad l := by
  ext1 i
  simp only [byte_zeropad, List.getD_eq_getElem?_getD, List.getElem?_take]
  simp [i.isLt]

/-- Zero bytes at the end do not change the padding: it is not injective (R104). -/
theorem zeropad_append_zero (l : List Byte) : zeropad (l ++ [0]) = zeropad l := by
  ext1 i
  simp only [byte_zeropad, List.getD_eq_getElem?_getD, List.getElem?_append]
  split
  · rfl
  · rename_i h
    rw [List.getElem?_eq_none (by omega : l.length ≤ i.val)]
    cases i.val - l.length <;> simp

@[simp] theorem length_le64 (n : BitVec 64) : (le64 n).length = 8 := by
  simp [le64]

end Machine

end Sys2Proof
end

