-- ==== Sys2Proof/Laws/State.lean ====
section
/-!
SUPPORT. One lemma for each field and each update of the state, true by rfl, so that no proof unfolds a record update.
-/

namespace Sys2Proof.Machine

section Finish
variable (s : State) (e : Engine) (err : Err) (bytes : List Byte)
@[simp] theorem State.finish_eng : (s.finish e err bytes).eng = e := rfl
@[simp] theorem State.finish_din : (s.finish e err bytes).din = s.din := rfl
@[simp] theorem State.finish_pending : (s.finish e err bytes).pending = s.pending := rfl
@[simp] theorem State.finish_responses :
    (s.finish e err bytes).responses = s.responses ++ [responseOf err bytes e] := rfl
theorem State.accept_eq : s.accept e bytes = .next (s.finish e .ok bytes) := rfl
theorem State.raise_eq : s.raise err = .next (s.finish s.eng err []) := rfl
theorem State.refuseIllegal_eq (why : Illegal) : s.refuseIllegal why = .next (s.finish s.eng .illegalCmd []) := rfl
@[simp] theorem responseOf_rsp : (responseOf err bytes e).rsp = rspWord err bytes.length e := rfl
@[simp] theorem responseOf_dout : (responseOf err bytes e).dout = zeropad bytes := rfl
end Finish

section Clear
variable (e : Engine)
@[simp] theorem clearInvocation_s : (clearInvocation e).s = SixBlocks.zero := rfl
@[simp] theorem clearInvocation_k0 : (clearInvocation e).k0 = e.k0 := rfl
@[simp] theorem clearInvocation_k1 : (clearInvocation e).k1 = e.k1 := rfl
@[simp] theorem clearInvocation_keyv : (clearInvocation e).keyv = e.keyv := rfl
@[simp] theorem clearInvocation_taglen : (clearInvocation e).taglen = e.taglen := rfl
@[simp] theorem clearInvocation_phase : (clearInvocation e).phase = e.phase := rfl
@[simp] theorem clearInvocation_dir : (clearInvocation e).dir = .encrypt := rfl
@[simp] theorem clearInvocation_adbits : (clearInvocation e).adbits = 0 := rfl
@[simp] theorem clearInvocation_msgbits : (clearInvocation e).msgbits = 0 := rfl
@[simp] theorem clearInvocation_buf : (clearInvocation e).buf = Block.zero := rfl
@[simp] theorem clearInvocation_pos : (clearInvocation e).pos = 0 := rfl
end Clear

section Ports
variable (s : State) (p : CommandPacket) (ev : HostEvent)
@[simp] theorem State.present_eng : (s.present p).eng = s.eng := rfl
@[simp] theorem State.present_din : (s.present p).din = p.din := rfl
@[simp] theorem State.present_pending : (s.present p).pending = s.pending := rfl
@[simp] theorem State.present_responses : (s.present p).responses = s.responses := rfl
@[simp] theorem State.applyReset_eng : s.applyReset.eng = Engine.reset := rfl
@[simp] theorem State.applyReset_din : s.applyReset.din = s.din := rfl
@[simp] theorem State.applyReset_pending : s.applyReset.pending = s.pending := rfl
@[simp] theorem State.applyReset_responses : s.applyReset.responses = s.responses := rfl
@[simp] theorem State.presentFirst_eng : (s.presentFirst ev).eng = s.eng := rfl
@[simp] theorem State.presentFirst_din : (s.presentFirst ev).din = s.din := rfl
@[simp] theorem State.presentFirst_pending : (s.presentFirst ev).pending = ev :: s.pending := rfl
@[simp] theorem State.presentFirst_responses : (s.presentFirst ev).responses = s.responses := rfl
theorem State.fetch_nil (h : s.pending = []) : s.fetch = none := by
  simp [State.fetch, h]
theorem State.fetch_cons {rest : List HostEvent} (h : s.pending = ev :: rest) :
    s.fetch = some (ev, { s with pending := rest }) := by
  simp [State.fetch, h]
end Ports

section Reset
@[simp] theorem State.reset_eng : State.reset.eng = Engine.reset := rfl
@[simp] theorem State.reset_pending : State.reset.pending = [] := rfl
@[simp] theorem State.reset_responses : State.reset.responses = [] := rfl
@[simp] theorem Engine.reset_s : Engine.reset.s = SixBlocks.zero := rfl
@[simp] theorem Engine.reset_k0 : Engine.reset.k0 = Block.zero := rfl
@[simp] theorem Engine.reset_k1 : Engine.reset.k1 = Block.zero := rfl
@[simp] theorem Engine.reset_keyv : Engine.reset.keyv = false := rfl
@[simp] theorem Engine.reset_taglen : Engine.reset.taglen = 16 := rfl
@[simp] theorem Engine.reset_phase : Engine.reset.phase = .idle := rfl
@[simp] theorem Engine.reset_dir : Engine.reset.dir = .encrypt := rfl
@[simp] theorem Engine.reset_adbits : Engine.reset.adbits = 0 := rfl
@[simp] theorem Engine.reset_msgbits : Engine.reset.msgbits = 0 := rfl
@[simp] theorem Engine.reset_buf : Engine.reset.buf = Block.zero := rfl
@[simp] theorem Engine.reset_pos : Engine.reset.pos = 0 := rfl
end Reset

end Sys2Proof.Machine
end

