-- ==== Sys2Proof/Laws/Ops.lean ====
section
/-!
SUPPORT. What the shared operations do, each said once: the fields of a response, the phases a check admits, and the
responses of an accepted and of a refused command.
-/

namespace Sys2Proof.Machine

theorem Phase.isBetween_iff (p : Phase) : p.isBetween = true ↔ BetweenInvocations p := by
  cases p <;> simp [Phase.isBetween, BetweenInvocations]

theorem Phase.isOpen_iff (p : Phase) : p.isOpen = true ↔ InvocationOpen p := by
  cases p <;> simp [Phase.isOpen, InvocationOpen]

theorem Phase.takesAd_iff (p : Phase) : p.takesAd = true ↔ p = .initialized ∨ p = .absorbingAd := by
  cases p <;> simp [Phase.takesAd]

theorem Err.code_le (e : Err) : e.code ≤ 7 := by cases e <;> decide

theorem Phase.code_le (p : Phase) : p.code ≤ 7 := by cases p <;> decide

theorem Phase.code_inj {p q : Phase} (h : p.code = q.code) : p = q := by
  revert h; cases p <;> cases q <;> decide

theorem dirCode_le (d : Dir) : dirCode d ≤ 1 := by cases d <;> decide

/-- Fields that do not overlap are added. -/
theorem or_shiftLeft_toNat {x y : Word} {a b i : Nat} (hx : x.toNat = a) (hy : y.toNat = b) (ha : a < 2 ^ i)
    (hb : b * 2 ^ i < 2 ^ 32) : (x ||| (y <<< i)).toNat = a + b * 2 ^ i := by
  subst hx hy
  rw [BitVec.toNat_or, BitVec.toNat_shiftLeft, Nat.shiftLeft_eq, Nat.mod_eq_of_lt hb, Nat.or_comm,
    ← Nat.shiftLeft_eq, ← Nat.shiftLeft_add_eq_or_of_lt ha, Nat.shiftLeft_eq, Nat.add_comm]

/-- The response word as one number: its fields lie side by side (R66). -/
theorem rspWord_toNat (err : Err) (n : Nat) (h : n ≤ 16) (e : Engine) :
    (rspWord err n e).toNat = err.code + e.phase.code * 2 ^ 4 + e.keyv.toNat * 2 ^ 7 + n * 2 ^ 8
      + e.taglen.toNat * 2 ^ 16 + dirCode e.dir * 2 ^ 21 := by
  have h1 := Err.code_le err
  have h2 := Phase.code_le e.phase
  have h3 := Bool.toNat_le e.keyv
  have h4 := e.taglen.isLt
  have h5 := dirCode_le e.dir
  have small (k : Nat) (hk : k ≤ 16) : (BitVec.ofNat 32 k).toNat = k := by
    rw [BitVec.toNat_ofNat]; omega
  have ht : (e.taglen.setWidth 32).toNat = e.taglen.toNat := by
    rw [BitVec.toNat_setWidth]; omega
  unfold rspWord
  refine or_shiftLeft_toNat (or_shiftLeft_toNat (or_shiftLeft_toNat (or_shiftLeft_toNat (or_shiftLeft_toNat
    (small _ (by omega)) (small _ (by omega)) ?_ ?_) (small _ (by omega)) ?_ ?_) (small _ h) ?_ ?_) ht ?_ ?_)
    (small _ (by omega)) ?_ ?_ <;> omega

/-- A field of a word is a quotient and a remainder of its number. -/
theorem extract_toNat (x : Word) (a n : Nat) : (x.extractLsb' a n).toNat = x.toNat / 2 ^ a % 2 ^ n := by
  rw [BitVec.extractLsb'_toNat, Nat.shiftRight_eq_div_pow]

theorem responseOf_err (err : Err) (bytes : List Byte) (h : bytes.length ≤ 16) (e : Engine) :
    (responseOf err bytes e).err = err.code := by
  have h1 := Err.code_le err
  rw [Response.err, extract_toNat, responseOf_rsp, rspWord_toNat _ _ h]
  omega

theorem responseOf_phase (err : Err) (bytes : List Byte) (h : bytes.length ≤ 16) (e : Engine) :
    (responseOf err bytes e).phase = e.phase.code := by
  have h1 := Err.code_le err
  have h2 := Phase.code_le e.phase
  rw [Response.phase, extract_toNat, responseOf_rsp, rspWord_toNat _ _ h]
  omega

theorem responseOf_olen (err : Err) (bytes : List Byte) (h : bytes.length ≤ 16) (e : Engine) :
    (responseOf err bytes e).olen = bytes.length := by
  have h1 := Err.code_le err
  have h2 := Phase.code_le e.phase
  have h3 := Bool.toNat_le e.keyv
  rw [Response.olen, extract_toNat, responseOf_rsp, rspWord_toNat _ _ h]
  omega

theorem responseOf_taglen (err : Err) (bytes : List Byte) (h : bytes.length ≤ 16) (e : Engine) :
    (responseOf err bytes e).taglen = e.taglen := by
  have h1 := Err.code_le err
  have h2 := Phase.code_le e.phase
  have h3 := Bool.toNat_le e.keyv
  have h4 := e.taglen.isLt
  apply BitVec.eq_of_toNat_eq
  rw [Response.taglen, extract_toNat, responseOf_rsp, rspWord_toNat _ _ h]
  omega

theorem getLsbD_toNat (x : Word) (i : Nat) : x.getLsbD i = decide (x.toNat / 2 ^ i % 2 = 1) := by
  rw [← BitVec.testBit_toNat, Nat.testBit_eq_decide_div_mod_eq]

theorem responseOf_keyv (err : Err) (bytes : List Byte) (h : bytes.length ≤ 16) (e : Engine) :
    (responseOf err bytes e).keyv = e.keyv := by
  have h1 := Err.code_le err
  have h2 := Phase.code_le e.phase
  rw [Response.keyv, getLsbD_toNat, responseOf_rsp, rspWord_toNat _ _ h]
  cases e.keyv <;> simp <;> omega

theorem responseOf_dir (err : Err) (bytes : List Byte) (h : bytes.length ≤ 16) (e : Engine) :
    (responseOf err bytes e).dir = true ↔ e.dir = .decrypt := by
  have h1 := Err.code_le err
  have h2 := Phase.code_le e.phase
  have h3 := Bool.toNat_le e.keyv
  have h4 := e.taglen.isLt
  rw [Response.dir, getLsbD_toNat, responseOf_rsp, rspWord_toNat _ _ h]
  cases e.dir <;> simp [dirCode] <;> omega

theorem responseOf_reservedZero (err : Err) (bytes : List Byte) (h : bytes.length ≤ 16) (e : Engine) :
    (responseOf err bytes e).reservedZero = true := by
  have h1 := Err.code_le err
  have h2 := Phase.code_le e.phase
  have h3 := Bool.toNat_le e.keyv
  have h4 := e.taglen.isLt
  have h5 := dirCode_le e.dir
  rw [Response.reservedZero, responseOf_rsp, Bool.and_eq_true, beq_iff_eq, beq_iff_eq]
  constructor <;> apply BitVec.eq_of_toNat_eq <;> rw [extract_toNat, rspWord_toNat _ _ h] <;> simp <;> omega

/-- Every response built from at most sixteen bytes reports the registers it was built from (R66). -/
theorem responseOf_reports (err : Err) (bytes : List Byte) (h : bytes.length ≤ 16) (e : Engine) :
    (responseOf err bytes e).Reports e where
  phase := responseOf_phase err bytes h e
  keyv := responseOf_keyv err bytes h e
  taglen := responseOf_taglen err bytes h e
  dir := responseOf_dir err bytes h e
  reserved := responseOf_reservedZero err bytes h e

/-- Ending a command with at most sixteen bytes answers it with that code and those bytes. -/
theorem finish_answered (s : State) (e : Engine) (err : Err) (bytes : List Byte) (h : bytes.length ≤ 16) :
    Answered s (s.finish e err bytes) err.code bytes where
  din := rfl
  pending := rfl
  response := ⟨responseOf err bytes e, rfl, responseOf_err err bytes h e, responseOf_olen err bytes h e,
    byte_zeropad bytes, responseOf_reports err bytes h e⟩

/-- `raise` refuses the command (R140). -/
theorem finish_refused (s : State) (err : Err) : Refused s (s.finish s.eng err []) err.code where
  answered := finish_answered s s.eng err [] (by simp)
  unchanged := rfl

/-- The output bytes of a response built from at most sixteen bytes are those bytes. -/
theorem responseOf_bytes (err : Err) (bytes : List Byte) (h : bytes.length ≤ 16) (e : Engine) :
    (responseOf err bytes e).bytes = bytes := by
  rw [Response.bytes, responseOf_olen err bytes h e, responseOf_dout]
  apply List.ext_getElem
  · simp; omega
  · intro i h1 h2
    rw [List.getElem_take, Block.getElem_toList, byte_zeropad]
    exact List.getD_eq_getElem _ _ h2

/-- Two answers to the same command in the same place have the same code. -/
theorem Answered.err_unique {s t : State} {a b : Nat} {x y : List Byte} (h : Answered s t a x)
    (h' : Answered s t b y) : a = b := by
  obtain ⟨r, hr, he, -⟩ := h.response
  obtain ⟨r', hr', he', -⟩ := h'.response
  have hrr : r = r' := by simpa using hr.symm.trans hr'
  rw [← he, ← he', hrr]

end Sys2Proof.Machine
end

