-- ==== Sys2Proof/Laws/Stream.lean ====
section
/-!
SUPPORT. What the byte-serial operations do to the engine: which registers they leave alone, and what one byte does.
-/

namespace Sys2Proof.Machine

/-- `e'` differs from `e` at most in `S`, `BUF` and `POS`. -/
structure SameBut (e e' : Engine) : Prop where
  k0 : e'.k0 = e.k0
  k1 : e'.k1 = e.k1
  keyv : e'.keyv = e.keyv
  taglen : e'.taglen = e.taglen
  phase : e'.phase = e.phase
  dir : e'.dir = e.dir
  adbits : e'.adbits = e.adbits
  msgbits : e'.msgbits = e.msgbits

theorem SameBut.refl (e : Engine) : SameBut e e := ⟨rfl, rfl, rfl, rfl, rfl, rfl, rfl, rfl⟩

theorem SameBut.trans {a b c : Engine} (h : SameBut a b) (h' : SameBut b c) : SameBut a c :=
  ⟨h'.k0.trans h.k0, h'.k1.trans h.k1, h'.keyv.trans h.keyv, h'.taglen.trans h.taglen, h'.phase.trans h.phase,
    h'.dir.trans h.dir, h'.adbits.trans h.adbits, h'.msgbits.trans h.msgbits⟩

/-- `takeByte` either fills the Block and absorbs it, or stores the byte and advances `POS` (R100). -/
theorem takeByte_cases (c : Config) (e : Engine) (b : Byte) :
    (e.pos.val = 15 ∧ takeByte c e b =
      { e with s := absorbBlock c e.s (e.buf.setByte e.pos b), buf := Block.zero, pos := 0 }) ∨
    (e.pos.val < 15 ∧ takeByte c e b = { e with buf := e.buf.setByte e.pos b, pos := e.pos + 1 } ∧
      (e.pos + 1).val = e.pos.val + 1) := by
  unfold takeByte
  by_cases h : e.pos.val = 15
  · exact .inl ⟨h, by simp [h]⟩
  · have hlt : e.pos.val < 15 := by omega
    refine .inr ⟨hlt, if_neg (by show ¬ e.pos.val + 1 = 16; omega), ?_⟩
    rw [Fin.val_add]
    show (e.pos.val + 1) % 16 = _
    omega

theorem takeByte_sameBut (c : Config) (e : Engine) (b : Byte) : SameBut e (takeByte c e b) := by
  rcases takeByte_cases c e b with ⟨-, h⟩ | ⟨-, h, -⟩ <;> rw [h] <;> exact ⟨rfl, rfl, rfl, rfl, rfl, rfl, rfl, rfl⟩

@[simp] theorem takeBytes_nil (c : Config) (e : Engine) : takeBytes c e [] = e := rfl

@[simp] theorem takeBytes_cons (c : Config) (e : Engine) (b : Byte) (bs : List Byte) :
    takeBytes c e (b :: bs) = takeBytes c (takeByte c e b) bs := rfl

theorem takeBytes_append (c : Config) (e : Engine) (xs ys : List Byte) :
    takeBytes c e (xs ++ ys) = takeBytes c (takeBytes c e xs) ys := by
  simp [takeBytes]

theorem takeBytes_sameBut (c : Config) (e : Engine) (bs : List Byte) : SameBut e (takeBytes c e bs) := by
  induction bs generalizing e with
  | nil => exact .refl e
  | cons b bs ih => exact (takeByte_sameBut c e b).trans (ih _)

/-- `POS` counts the bytes taken modulo sixteen (R100). -/
theorem takeByte_pos (c : Config) (e : Engine) (b : Byte) : (takeByte c e b).pos.val = (e.pos.val + 1) % 16 := by
  rcases takeByte_cases c e b with ⟨hp, h⟩ | ⟨hp, h, hs⟩
  · rw [h]; simp [hp]
  · rw [h, hs]; omega

theorem takeBytes_pos (c : Config) (e : Engine) (bs : List Byte) :
    (takeBytes c e bs).pos.val = (e.pos.val + bs.length) % 16 := by
  induction bs generalizing e with
  | nil => simpa using (Nat.mod_eq_of_lt e.pos.isLt).symm
  | cons b bs ih => rw [takeBytes_cons, ih, takeByte_pos, List.length_cons]; omega

/-- `BUF` beyond `POS` is zero (R35(c)). -/
def BufPadded (e : Engine) : Prop := ∀ j : Fin 16, e.pos ≤ j → e.buf.byte j = 0

theorem takeByte_bufPadded (c : Config) (e : Engine) (b : Byte) (h : BufPadded e) : BufPadded (takeByte c e b) := by
  rcases takeByte_cases c e b with ⟨-, ht⟩ | ⟨-, ht, hs⟩ <;> rw [ht] <;> intro j hj
  · simp
  · have hj' : e.pos.val + 1 ≤ j.val := hs ▸ hj
    have hne : j ≠ e.pos := fun he => by rw [he] at hj'; omega
    simpa [hne] using h j (Fin.le_def.2 (by omega))

theorem takeBytes_bufPadded (c : Config) (e : Engine) (bs : List Byte) (h : BufPadded e) :
    BufPadded (takeBytes c e bs) := by
  induction bs generalizing e with
  | nil => exact h
  | cons b bs ih => exact ih _ (takeByte_bufPadded c e b h)

theorem flushTail_sameBut (c : Config) (e : Engine) : SameBut e (flushTail c e) :=
  ⟨rfl, rfl, rfl, rfl, rfl, rfl, rfl, rfl⟩

@[simp] theorem flushTail_buf (c : Config) (e : Engine) : (flushTail c e).buf = Block.zero := rfl
@[simp] theorem flushTail_pos (c : Config) (e : Engine) : (flushTail c e).pos = 0 := rfl
theorem flushTail_s (c : Config) (e : Engine) :
    (flushTail c e).s = if e.pos.val > 0 then absorbBlock c e.s e.buf else e.s := rfl

/-- `POS` after the bookkeeping that begins the payload (R101). -/
theorem beginPayload_eq (c : Config) (e : Engine) :
    beginPayload c e = e ∧ e.phase = .processingPayload ∨
    beginPayload c e = flushTail c e ∧ e.phase ≠ .processingPayload := by
  unfold beginPayload
  split
  · exact .inl ⟨rfl, ‹_›⟩
  · exact .inr ⟨rfl, ‹_›⟩

theorem beginPayload_sameBut (c : Config) (e : Engine) : SameBut e (beginPayload c e) := by
  rcases beginPayload_eq c e with ⟨h, -⟩ | ⟨h, -⟩ <;> rw [h]
  · exact .refl e
  · exact flushTail_sameBut c e

theorem beginPayload_bufPadded (c : Config) (e : Engine) (h : BufPadded e) : BufPadded (beginPayload c e) := by
  rcases beginPayload_eq c e with ⟨he, -⟩ | ⟨he, -⟩ <;> rw [he]
  · exact h
  · intro j _; simp

/-- The plaintext of a beat: the input bytes when encrypting, the output bytes when decrypting (R111, R112). -/
def plainOf (d : Dir) (input output : List Byte) : List Byte :=
  match d with
  | .encrypt => input
  | .decrypt => output

@[simp] theorem cryptBytes_nil (c : Config) (d : Dir) (e : Engine) : cryptBytes c d e [] = ([], e) := rfl

theorem cryptBytes_cons (c : Config) (d : Dir) (e : Engine) (b : Byte) (bs : List Byte) :
    cryptBytes c d e (b :: bs) =
      ((cryptByte c d e b).1 :: (cryptBytes c d (cryptByte c d e b).2 bs).1,
        (cryptBytes c d (cryptByte c d e b).2 bs).2) := rfl

/-- One output byte for each input byte (R67). -/
@[simp] theorem length_cryptBytes (c : Config) (d : Dir) (e : Engine) (bs : List Byte) :
    (cryptBytes c d e bs).1.length = bs.length := by
  induction bs generalizing e with
  | nil => rfl
  | cons b bs ih => simp [cryptBytes_cons, ih]

/-- A beat leaves the engine as `takeByte` of its plaintext bytes does (R111, R112). -/
theorem cryptBytes_engine (c : Config) (d : Dir) (e : Engine) (bs : List Byte) :
    (cryptBytes c d e bs).2 = takeBytes c e (plainOf d bs (cryptBytes c d e bs).1) := by
  induction bs generalizing e with
  | nil => cases d <;> rfl
  | cons b bs ih =>
    rw [cryptBytes_cons]
    cases d <;> simp only [plainOf, takeBytes_cons] <;> exact ih _

theorem cryptBytes_append (c : Config) (d : Dir) (e : Engine) (xs ys : List Byte) :
    cryptBytes c d e (xs ++ ys) =
      ((cryptBytes c d e xs).1 ++ (cryptBytes c d (cryptBytes c d e xs).2 ys).1,
        (cryptBytes c d (cryptBytes c d e xs).2 ys).2) := by
  induction xs generalizing e with
  | nil => rfl
  | cons x xs ih => simp [cryptBytes_cons, ih]

theorem cryptBytes_sameBut (c : Config) (d : Dir) (e : Engine) (bs : List Byte) :
    SameBut e (cryptBytes c d e bs).2 := by
  rw [cryptBytes_engine]
  exact takeBytes_sameBut c e _

/-- Decrypting what was encrypted from the same `S`, `BUF`, `POS` gives the bytes back and leaves the same
engine (R114, one stretch of bytes). -/
theorem decrypt_cryptBytes (c : Config) (e : Engine) (bs : List Byte) :
    cryptBytes c .decrypt e (cryptBytes c .encrypt e bs).1 = (bs, (cryptBytes c .encrypt e bs).2) := by
  induction bs generalizing e with
  | nil => rfl
  | cons b bs ih =>
    rw [cryptBytes_cons c .encrypt]
    have hb : cryptByte c .decrypt e (cryptByte c .encrypt e b).1 = (b, (cryptByte c .encrypt e b).2) := by
      simp [cryptByte]
    rw [cryptBytes_cons, hb, ih]

/-! Finalising. -/

theorem finishStream_sameContext (c : Config) (e : Engine) :
    (finishStream c e).1.k0 = e.k0 ∧ (finishStream c e).1.k1 = e.k1 ∧ (finishStream c e).1.keyv = e.keyv ∧
      (finishStream c e).1.taglen = e.taglen := ⟨rfl, rfl, rfl, rfl⟩

/-- `derived`, from the flushed State and the two counters (R120, R121, R123). -/
theorem finishStream_derived (c : Config) (e : Engine) :
    (finishStream c e).2 = xorAll (finalMix c (flushTail c e).s e.adbits e.msgbits) := rfl

end Sys2Proof.Machine
end

