-- ==== Sys2Proof/Laws/Exec.lean ====
section
/-!
SUPPORT. What a command can do, said once: which check refuses it, and what it leaves when it runs. The proofs about
`exec` cite these instead of unfolding the meanings.
-/

namespace Sys2Proof.Machine

/-- The error of a command whose length or value is not accepted (R145, R146, R147). -/
def lengthErr (i : Instr) : Err :=
  match i with
  | .setkey _ => .invalidKeyLength
  | .settaglen _ => .invalidTagLength
  | .init _ _ => .invalidLength
  | .ad _ => .invalidLength
  | .enc _ => .invalidLength
  | .dec _ => .invalidLength
  | .finalEmit => .invalidLength
  | .finalVerify _ => .invalidLength
  | .abort => .invalidLength
  | .status => .invalidLength

theorem exec_phaseErr {i : Instr} {s : State} (h : ¬ (AllowedInPhase i s.eng.phase ∧ AllowedInDir i s.eng.dir)) :
    exec i s = .next (s.finish s.eng .phaseErr []) := by
  cases i <;>
    simp_all [AllowedInPhase, AllowedInDir, ← Phase.isBetween_iff, ← Phase.isOpen_iff, ← Phase.takesAd_iff, exec,
      execSetkey, execSettaglen, execInit, execAd, execEnc, execDec, cryptBeat, execFinalEmit, execFinalVerify,
      State.raise_eq]

theorem exec_noKey {i : Instr} {s : State} (h : AllowedInPhase i s.eng.phase) (hd : AllowedInDir i s.eng.dir)
    (hk : ¬ KeyPresent i s.eng.keyv) : exec i s = .next (s.finish s.eng .noKey []) := by
  cases i <;>
    simp_all [AllowedInPhase, KeyPresent, ← Phase.isBetween_iff, exec, execInit, State.raise_eq]

theorem exec_lengthErr {i : Instr} {s : State} (h : AllowedInPhase i s.eng.phase) (hd : AllowedInDir i s.eng.dir)
    (hk : KeyPresent i s.eng.keyv) (ho : ¬ OperandAccepted i s.eng.taglen) :
    exec i s = .next (s.finish s.eng (lengthErr i) []) := by
  cases i <;>
    simp_all [AllowedInPhase, AllowedInDir, KeyPresent, OperandAccepted, lengthErr, ← Phase.isBetween_iff,
      ← Phase.isOpen_iff, ← Phase.takesAd_iff, exec, execSetkey, execSettaglen, execInit, execAd, execEnc, execDec,
      cryptBeat, execFinalVerify, State.raise_eq]

/-! What each command leaves when every check passes. -/

theorem exec_setkey {len : Nat} {s : State} (h : Runs (.setkey len) s.eng) :
    exec (.setkey len) s =
      .next (s.finish { s.eng with k0 := s.din.lo, k1 := s.din.hi, keyv := true } .ok []) := by
  obtain ⟨hp, -, -, ho⟩ := h
  simp_all [AllowedInPhase, OperandAccepted, ← Phase.isBetween_iff, exec, execSetkey, State.accept_eq,
    DataIn.firstBlock, DataIn.secondBlock]

theorem exec_settaglen {val : Nat} {s : State} (h : Runs (.settaglen val) s.eng) :
    exec (.settaglen val) s = .next (s.finish { s.eng with taglen := BitVec.ofNat 5 val } .ok []) := by
  obtain ⟨hp, -, -, h8, h16⟩ := h
  simp_all [AllowedInPhase, ← Phase.isBetween_iff, exec, execSettaglen, State.accept_eq]

theorem exec_init {len : Nat} {dir : Dir} {s : State} (h : Runs (.init len dir) s.eng) :
    exec (.init len dir) s =
      .next (s.finish { clearInvocation s.eng with
        s := initState config s.eng.k0 s.eng.k1 s.din.lo s.din.hi, dir := dir, phase := .initialized } .ok []) := by
  obtain ⟨hp, -, hk, ho⟩ := h
  simp_all [AllowedInPhase, KeyPresent, OperandAccepted, ← Phase.isBetween_iff, exec, execInit, State.accept_eq,
    DataIn.firstBlock, DataIn.secondBlock]

theorem exec_ad {len : Nat} {s : State} (h : Runs (.ad len) s.eng) :
    exec (.ad len) s =
      .next (s.finish { takeBytes config s.eng (s.din.first len) with
        adbits := s.eng.adbits + bitCount len, phase := .absorbingAd } .ok []) := by
  obtain ⟨hp, -, -, ho⟩ := h
  have hs := takeBytes_sameBut config s.eng (s.din.first len)
  simp_all [AllowedInPhase, OperandAccepted, ← Phase.takesAd_iff, exec, execAd, State.accept_eq, hs.adbits]

/-- `ENC` and `DEC` alike, once phase, direction and length are accepted. -/
theorem exec_crypt {d : Dir} {len : Nat} {s : State} (hp : InvocationOpen s.eng.phase) (hd : s.eng.dir = d)
    (ho : len ≤ 16) :
    cryptBeat d len s =
      .next (s.finish { (cryptBytes config d (beginPayload config s.eng) (s.din.first len)).2 with
        msgbits := s.eng.msgbits + bitCount len, phase := .processingPayload } .ok
        (cryptBytes config d (beginPayload config s.eng) (s.din.first len)).1) := by
  have hs := (beginPayload_sameBut config s.eng).trans
    (cryptBytes_sameBut config d (beginPayload config s.eng) (s.din.first len))
  simp_all [← Phase.isOpen_iff, cryptBeat, State.accept_eq, hs.msgbits]

theorem exec_enc {len : Nat} {s : State} (h : Runs (.enc len) s.eng) :
    exec (.enc len) s =
      .next (s.finish { (cryptBytes config .encrypt (beginPayload config s.eng) (s.din.first len)).2 with
        msgbits := s.eng.msgbits + bitCount len, phase := .processingPayload } .ok
        (cryptBytes config .encrypt (beginPayload config s.eng) (s.din.first len)).1) :=
  exec_crypt h.1 h.2.1 h.2.2.2

theorem exec_dec {len : Nat} {s : State} (h : Runs (.dec len) s.eng) :
    exec (.dec len) s =
      .next (s.finish { (cryptBytes config .decrypt (beginPayload config s.eng) (s.din.first len)).2 with
        msgbits := s.eng.msgbits + bitCount len, phase := .processingPayload } .ok
        (cryptBytes config .decrypt (beginPayload config s.eng) (s.din.first len)).1) :=
  exec_crypt h.1 h.2.1 h.2.2.2

theorem exec_finalEmit {s : State} (h : Runs .finalEmit s.eng) :
    exec .finalEmit s =
      .next (s.finish { clearInvocation s.eng with phase := .tagEmitted } .ok
        ((finishStream config s.eng).2.toList.take s.eng.taglen.toNat)) := by
  obtain ⟨hp, hd, -, -⟩ := h
  simp_all [AllowedInPhase, AllowedInDir, ← Phase.isOpen_iff, exec, execFinalEmit, State.accept_eq]
  rfl

theorem exec_finalVerify {len : Nat} {s : State} (h : Runs (.finalVerify len) s.eng) :
    exec (.finalVerify len) s =
      if isZero (xorBlock (zeropad (s.din.first len)) (finishStream config s.eng).2) len then
        .next (s.finish { clearInvocation s.eng with phase := .verified } .ok [])
      else .next (s.finish { clearInvocation s.eng with phase := .authFailed } .authFail []) := by
  obtain ⟨hp, hd, -, ho⟩ := h
  simp_all [AllowedInPhase, AllowedInDir, OperandAccepted, ← Phase.isOpen_iff, exec, execFinalVerify]
  rfl

theorem exec_abort (s : State) :
    exec .abort s = .next (s.finish { clearInvocation s.eng with phase := .idle } .ok []) := rfl

theorem exec_status (s : State) : exec .status s = .next (s.finish s.eng .ok []) := rfl

/-! The two outcomes together. -/

/-- Where a command is refused: the first check of R149 that fails, and its error. -/
theorem exec_refused {i : Instr} {s : State} (h : ¬ Runs i s.eng) :
    ∃ err : Err, exec i s = .next (s.finish s.eng err []) ∧
      (err = .phaseErr ∧ ¬ (AllowedInPhase i s.eng.phase ∧ AllowedInDir i s.eng.dir) ∨
        err = .noKey ∧ AllowedInPhase i s.eng.phase ∧ ¬ KeyPresent i s.eng.keyv ∨
        err = lengthErr i ∧ AllowedInPhase i s.eng.phase ∧ AllowedInDir i s.eng.dir ∧ KeyPresent i s.eng.keyv ∧
          ¬ OperandAccepted i s.eng.taglen) := by
  by_cases hp : AllowedInPhase i s.eng.phase ∧ AllowedInDir i s.eng.dir
  · by_cases hk : KeyPresent i s.eng.keyv
    · have ho : ¬ OperandAccepted i s.eng.taglen := fun ho => h ⟨hp.1, hp.2, hk, ho⟩
      exact ⟨_, exec_lengthErr hp.1 hp.2 hk ho, .inr (.inr ⟨rfl, hp.1, hp.2, hk, ho⟩)⟩
    · exact ⟨_, exec_noKey hp.1 hp.2 hk, .inr (.inl ⟨rfl, hp.1, hk⟩)⟩
  · exact ⟨_, exec_phaseErr hp, .inl ⟨rfl, hp⟩⟩

theorem length_first_le (d : DataIn) (n : Nat) : (d.first n).length ≤ n := by
  simp [DataIn.first]

/-- `DIN[0..n)` has `n` bytes when `n` is at most 32. -/
theorem length_first (d : DataIn) {n : Nat} (h : n ≤ 32) : (d.first n).length = n := by
  simp [DataIn.first, DataIn.bytes, h]

/-- Every command ends with one response of at most sixteen bytes, and the host's side of the ports stays. -/
theorem exec_finishes (i : Instr) (s : State) :
    ∃ (e : Engine) (err : Err) (bytes : List Byte), bytes.length ≤ 16 ∧ exec i s = .next (s.finish e err bytes) := by
  by_cases h : Runs i s.eng
  · cases i with
    | setkey len => exact ⟨_, _, _, by simp, exec_setkey h⟩
    | settaglen val => exact ⟨_, _, _, by simp, exec_settaglen h⟩
    | init len dir => exact ⟨_, _, _, by simp, exec_init h⟩
    | ad len => exact ⟨_, _, _, by simp, exec_ad h⟩
    | enc len => exact ⟨_, _, _, by simpa using (length_first_le s.din len).trans h.2.2.2, exec_enc h⟩
    | dec len => exact ⟨_, _, _, by simpa using (length_first_le s.din len).trans h.2.2.2, exec_dec h⟩
    | finalEmit => exact ⟨_, _, _, by simp, exec_finalEmit h⟩
    | finalVerify len =>
      rw [exec_finalVerify h]
      split
      · exact ⟨_, _, _, by simp, rfl⟩
      · exact ⟨_, _, _, by simp, rfl⟩
    | abort => exact ⟨_, _, _, by simp, exec_abort s⟩
    | status => exact ⟨_, _, _, by simp, exec_status s⟩
  · obtain ⟨err, he, -⟩ := exec_refused h
    exact ⟨_, _, _, by simp, he⟩

end Sys2Proof.Machine
end

