-- ==== Sys2Proof/Laws/PerInstr.lean ====
section
/-!
SUPPORT. The per-instruction family `RowMatch`: the word of each command matches its row of the opcode map
(spec/30_encoding.md R63), whatever its operands.
-/

namespace Sys2Proof.Laws.RowMatch

/-- The encoded word, under the row's mask, is the row's pattern; and the row is one of the ten of R63. -/
def Statement (i : Instr) : Prop := encode i &&& i.row.mask = i.row.pattern ∧ i.row ∈ opcodeTable

/-- A format L or V word keeps its opcode and its zero bits under the mask. -/
theorem operand_masked (n : Nat) (op : Word) (h : op &&& 0xFFFF00FF#32 = op) :
    (op ||| operandField n) &&& 0xFFFF00FF#32 = op := by
  have hz : ∀ v : BitVec 8, (v.setWidth 32 <<< 8) &&& 0xFFFF00FF#32 = 0#32 := by decide
  rw [BitVec.and_comm, BitVec.and_or_distrib_left, BitVec.and_comm _ op, h, BitVec.and_comm, operandField, hz]
  simp

/-- The format I word keeps its opcode and its zero bits under the mask. -/
theorem init_masked (n : Nat) (dir : Dir) :
    (0x03#32 ||| operandField n ||| (dir.bit <<< 16)) &&& 0xFFFE00FF#32 = 0x03#32 := by
  have hz : ∀ v : BitVec 8,
      (0x03#32 ||| (v.setWidth 32 <<< 8) ||| (dir.bit <<< 16)) &&& 0xFFFE00FF#32 = 0x03#32 := by
    cases dir <;> decide
  exact hz _

theorem setkey (len : Nat) : Statement (.setkey len) :=
  ⟨operand_masked len 0x01 (by decide), by simp [opcodeTable, Instr.row]⟩
theorem settaglen (val : Nat) : Statement (.settaglen val) :=
  ⟨operand_masked val 0x02 (by decide), by simp [opcodeTable, Instr.row]⟩
theorem init (len : Nat) (dir : Dir) : Statement (.init len dir) :=
  ⟨init_masked len dir, by simp [opcodeTable, Instr.row]⟩
theorem ad (len : Nat) : Statement (.ad len) :=
  ⟨operand_masked len 0x04 (by decide), by simp [opcodeTable, Instr.row]⟩
theorem enc (len : Nat) : Statement (.enc len) :=
  ⟨operand_masked len 0x05 (by decide), by simp [opcodeTable, Instr.row]⟩
theorem dec (len : Nat) : Statement (.dec len) :=
  ⟨operand_masked len 0x06 (by decide), by simp [opcodeTable, Instr.row]⟩
theorem finalEmit : Statement .finalEmit := ⟨by decide, by simp [opcodeTable, Instr.row]⟩
theorem finalVerify (len : Nat) : Statement (.finalVerify len) :=
  ⟨operand_masked len 0x08 (by decide), by simp [opcodeTable, Instr.row]⟩
theorem abort : Statement .abort := ⟨by decide, by simp [opcodeTable, Instr.row]⟩
theorem status : Statement .status := ⟨by decide, by simp [opcodeTable, Instr.row]⟩

end Sys2Proof.Laws.RowMatch
end

