-- ==== Sys2Proof/Laws/Step.lean ====
section
/-!
SUPPORT. What one step can do, said once.
-/

namespace Sys2Proof.Machine

theorem step_idle {s : State} (h : s.pending = []) : step s = .next s := by
  simp [step, State.fetch_nil s h]

theorem step_reset {s : State} {rest : List HostEvent} (h : s.pending = .reset :: rest) :
    step s = .next ({ s with pending := rest } : State).applyReset := by
  simp [step, State.fetch_cons s .reset h]

theorem step_command {s : State} {p : CommandPacket} {rest : List HostEvent} {i : Instr}
    (h : s.pending = .command p :: rest) (hd : decode p.cmd = .ok i) :
    step s = exec i (({ s with pending := rest } : State).present p) := by
  simp [step, State.fetch_cons s _ h, hd]

theorem step_illegal {s : State} {p : CommandPacket} {rest : List HostEvent} {why : Illegal}
    (h : s.pending = .command p :: rest) (hd : decode p.cmd = .error why) :
    step s = .next ((({ s with pending := rest } : State).present p).finish s.eng .illegalCmd []) := by
  simp [step, State.fetch_cons s _ h, hd, State.refuseIllegal_eq]

/-- A step waits, resets, answers an illegal word, or runs the decoded command; there is no fifth case. -/
theorem step_cases (s : State) :
    (s.pending = [] ∧ step s = .next s) ∨
    (∃ rest, s.pending = .reset :: rest ∧ step s = .next ({ s with pending := rest } : State).applyReset) ∨
    (∃ p rest why, s.pending = .command p :: rest ∧ decode p.cmd = .error why ∧
      step s = .next ((({ s with pending := rest } : State).present p).finish s.eng .illegalCmd [])) ∨
    (∃ p rest i, s.pending = .command p :: rest ∧ decode p.cmd = .ok i ∧
      step s = exec i (({ s with pending := rest } : State).present p)) := by
  match h : s.pending with
  | [] => exact .inl ⟨rfl, step_idle h⟩
  | .reset :: rest => exact .inr (.inl ⟨rest, rfl, step_reset h⟩)
  | .command p :: rest =>
    match hd : decode p.cmd with
    | .ok i => exact .inr (.inr (.inr ⟨p, rest, i, rfl, hd, step_command h hd⟩))
    | .error why => exact .inr (.inr (.inl ⟨p, rest, why, rfl, hd, step_illegal h hd⟩))

/-- What `withFetchWord` places is what the next step takes. -/
@[simp] theorem withFetchWord_pending (s : State) (nbits w : Nat) :
    (s.withFetchWord nbits w).pending = .command (wordPacket nbits w) :: s.pending := rfl

end Sys2Proof.Machine
end

