-- ==== Sys2Proof/Laws/Run.lean ====
section
/-!
SUPPORT. Runs of several steps, one step at a time and end to end; and the bytes a packet built from a byte string
gives its command.
-/

namespace Sys2Proof.Machine

/-- Every step answers a next state (R172). -/
theorem step_next (s : State) : ∃ t, step s = .next t := by
  rcases step_cases s with ⟨_, h⟩ | ⟨_, _, h⟩ | ⟨_, _, _, _, _, h⟩ | ⟨_, _, _, _, _, h⟩
  · exact ⟨_, h⟩
  · exact ⟨_, h⟩
  · exact ⟨_, h⟩
  · obtain ⟨e, err, bytes, -, h'⟩ := exec_finishes _ _
    exact ⟨_, h.trans h'⟩

theorem run_succ {s t : State} (n : Nat) (h : step s = .next t) :
    Sys2Proof.core.run (n + 1) s = Sys2Proof.core.run n t := by
  have h' : Sys2Proof.core.step s = .next t := h
  simp only [Host.Core.run]
  rw [h']

theorem run_add {m : Nat} {s t : State} (n : Nat) (h : Sys2Proof.core.run m s = .next t) :
    Sys2Proof.core.run (m + n) s = Sys2Proof.core.run n t := by
  induction m generalizing s with
  | zero => cases h; rw [Nat.zero_add]
  | succ m ih =>
    obtain ⟨s', hs⟩ := step_next s
    rw [run_succ _ hs] at h
    rw [Nat.succ_add, Nat.succ_eq_add_one, run_succ _ hs]
    exact ih h

/-- A packet's operand of the right length is the byte string the packet was built from (R68). -/
theorem first_dataInOf (bytes : List Byte) (h : bytes.length ≤ 32) :
    (dataInOf bytes).first bytes.length = bytes := by
  apply List.ext_getElem
  · simp [length_first _ h]
  · intro i h1 h2
    simp only [DataIn.first, List.getElem_take, DataIn.bytes, dataInOf, List.getElem_append, Block.getElem_toList,
      byte_zeropad]
    split
    · exact List.getD_eq_getElem _ _ h2
    · rename_i h3
      simp at h3 ⊢
      rw [show 16 + (i - 16) = i by omega]
      simp [h2]

theorem outputBytes_append (a b : List Response) : outputBytes (a ++ b) = outputBytes a ++ outputBytes b := by
  simp [outputBytes]

theorem outputBytes_responseOf (err : Err) (bytes : List Byte) (h : bytes.length ≤ 16) (e : Engine) :
    outputBytes [responseOf err bytes e] = bytes := by
  simp [outputBytes, responseOf_bytes _ _ h]

theorem bitCount_add (a b : Nat) : bitCount a + bitCount b = bitCount (a + b) := by
  apply BitVec.eq_of_toNat_eq
  simp [bitCount]
  omega

end Sys2Proof.Machine
end

