-- ==== Sys2Proof/Laws/Whole.lean ====
section
/-!
SUPPORT. Byte-serial absorption against whole strings: what the stream registers hold once any byte string has been
taken, and the key-stream bytes it met.
-/

namespace Sys2Proof.Machine

/-! The waiting bytes. -/

@[simp] theorem length_heldBytes (e : Engine) : (heldBytes e).length = e.pos.val := by
  simp [heldBytes]

/-- A padded buffer is the zero-padding of its valid bytes (R28). -/
theorem zeropad_heldBytes {e : Engine} (h : TailPadded e) : zeropad (heldBytes e) = e.buf := by
  ext1 j
  rw [byte_zeropad]
  by_cases hj : j.val < e.pos.val
  · rw [List.getD_eq_getElem _ _ (by rw [length_heldBytes]; exact hj)]
    simp only [heldBytes, List.getElem_take, Block.getElem_toList]
  · rw [h j (Fin.le_def.2 (by omega)), List.getD_eq_default _ _ (by rw [length_heldBytes]; omega)]

/-- Writing the next byte of a zero-padded string extends the string. -/
theorem setByte_zeropad (l : List Byte) (b : Byte) (i : Fin 16) (h : l.length = i.val) :
    (zeropad l).setByte i b = zeropad (l ++ [b]) := by
  ext1 j
  rw [Block.byte_setByte, byte_zeropad, byte_zeropad, List.getD_eq_getElem?_getD, List.getD_eq_getElem?_getD,
    List.getElem?_append]
  by_cases hj : j = i
  · subst hj; simp [h]
  · have hne : j.val ≠ i.val := fun h' => hj (Fin.ext h')
    rw [if_neg hj]
    split
    · rfl
    · rw [List.getElem?_eq_none (by omega), List.getElem?_eq_none (by simp; omega)]

/-! Whole Blocks of a growing string. -/

theorem length_wholeBlocks (l : List Byte) : (wholeBlocks l).length = l.length / 16 := by
  simp [wholeBlocks]

theorem length_leftOver (l : List Byte) : (leftOver l).length = l.length % 16 := by
  simp [leftOver]
  omega

/-- A byte at the end changes no slice before it. -/
theorem drop_take_snoc (l : List Byte) (b : Byte) (a n : Nat) (h : a + n ≤ l.length) :
    ((l ++ [b]).drop a).take n = (l.drop a).take n := by
  rw [List.drop_append_of_le_length (by omega), List.take_append_of_le_length (by simp; omega)]

/-- One more byte that completes no Block. -/
theorem wholeBlocks_snoc_of_ne (l : List Byte) (b : Byte) (h : (l.length + 1) % 16 ≠ 0) :
    wholeBlocks (l ++ [b]) = wholeBlocks l ∧ leftOver (l ++ [b]) = leftOver l ++ [b] := by
  have hq : (l.length + 1) / 16 = l.length / 16 := by omega
  constructor
  · simp only [wholeBlocks, List.length_append, List.length_singleton, hq]
    apply List.map_congr_left
    intro k hk
    simp at hk
    rw [drop_take_snoc _ _ _ _ (by omega)]
  · simp only [leftOver, List.length_append, List.length_singleton, hq]
    rw [List.drop_append_of_le_length (by omega)]

/-- One more byte that completes a Block. -/
theorem wholeBlocks_snoc_of_eq (l : List Byte) (b : Byte) (h : (l.length + 1) % 16 = 0) :
    wholeBlocks (l ++ [b]) = wholeBlocks l ++ [zeropad (leftOver l ++ [b])] ∧ leftOver (l ++ [b]) = [] := by
  have hq : (l.length + 1) / 16 = l.length / 16 + 1 := by omega
  constructor
  · simp only [wholeBlocks, List.length_append, List.length_singleton, hq, List.range_succ, List.map_append,
      List.map_singleton]
    congr 1
    · apply List.map_congr_left
      intro k hk
      simp at hk
      rw [drop_take_snoc _ _ _ _ (by omega)]
    · rw [leftOver, ← List.drop_append_of_le_length (by omega), List.take_of_length_le (by simp; omega)]
  · simp only [leftOver, List.length_append, List.length_singleton, hq]
    apply List.drop_of_length_le
    simp
    omega

/-! The stream registers. -/

/-- The stream registers after the bytes `l` were taken from the State `S0`: the whole Blocks are absorbed, the rest
waits zero-padded (R100). -/
structure Absorbed (c : Config) (S0 : SixBlocks) (l : List Byte) (e : Engine) : Prop where
  s : e.s = absorbAll c S0 (wholeBlocks l)
  buf : e.buf = zeropad (leftOver l)
  pos : e.pos.val = l.length % 16

section Absorbed
variable {c : Config} {S0 : SixBlocks} {l : List Byte} {e e' : Engine}

theorem Absorbed.nil (hs : e.s = S0) (hb : e.buf = Block.zero) (hp : e.pos = 0) : Absorbed c S0 [] e :=
  ⟨by simp [hs, wholeBlocks, absorbAll], by simp [hb, leftOver], by simp [hp]⟩

theorem Absorbed.takeByte (h : Absorbed c S0 l e) (b : Byte) : Absorbed c S0 (l ++ [b]) (takeByte c e b) := by
  have hpos := h.pos
  rcases takeByte_cases c e b with ⟨h15, ht⟩ | ⟨hlt, ht, hs⟩
  · obtain ⟨w1, w2⟩ := wholeBlocks_snoc_of_eq l b (by omega)
    refine ⟨?_, ?_, ?_⟩ <;> rw [ht]
    · simp [w1, absorbAll, h.s, h.buf]
      rw [setByte_zeropad]
      rw [length_leftOver, hpos]
    · simp [w2]
    · simp; omega
  · obtain ⟨w1, w2⟩ := wholeBlocks_snoc_of_ne l b (by omega)
    refine ⟨?_, ?_, ?_⟩ <;> rw [ht]
    · simp [w1, h.s]
    · simp only [w2, h.buf]
      rw [setByte_zeropad]
      rw [length_leftOver, hpos]
    · simp [hs]; omega

/-- Taking more bytes extends the string. -/
theorem Absorbed.takeBytes (h : Absorbed c S0 l e) (bs : List Byte) :
    Absorbed c S0 (l ++ bs) (takeBytes c e bs) := by
  induction bs generalizing l e with
  | nil => simpa using h
  | cons b bs ih => have := ih (h.takeByte b); simpa using this

/-- Flushing gives the one-call form (R103). -/
theorem Absorbed.flushTail (h : Absorbed c S0 l e) : (flushTail c e).s = processWhole c S0 l := by
  rw [flushTail_s, processWhole, length_leftOver, h.pos, h.s, h.buf]
  by_cases h0 : l.length % 16 = 0
  · simp [h0]
  · simp [h0]

/-- The other registers do not matter. -/
theorem Absorbed.congr (h : Absorbed c S0 l e) (h1 : e'.s = e.s) (h2 : e'.buf = e.buf) (h3 : e'.pos = e.pos) :
    Absorbed c S0 l e' :=
  ⟨h1.trans h.s, h2.trans h.buf, by rw [h3, h.pos]⟩

/-- The next ciphertext byte is the key-stream byte of the State as it stands (R111). -/
theorem encryptWhole_snoc (h : Absorbed c S0 l e) (b : Byte) :
    encryptWhole c S0 (l ++ [b]) = encryptWhole c S0 l ++ [b ^^^ (keystream e.s).byte e.pos] := by
  simp only [encryptWhole, List.length_append, List.length_singleton, List.range_succ, List.map_append,
    List.map_singleton]
  have hst : ∀ n ≤ l.length, (wholeBlocks (l ++ [b])).take (n / 16) = (wholeBlocks l).take (n / 16) := by
    intro n hn
    by_cases h16 : (l.length + 1) % 16 = 0
    · rw [(wholeBlocks_snoc_of_eq l b h16).1, List.take_append_of_le_length]
      rw [length_wholeBlocks]
      omega
    · rw [(wholeBlocks_snoc_of_ne l b h16).1]
  congr 1
  · apply List.map_congr_left
    intro n hn
    simp at hn
    rw [stateAt, hst n (by omega), ← stateAt]
    congr 1
    simp [List.getElem?_append, hn]
  · congr 2
    · simp
    · rw [stateAt, hst _ (le_refl _), List.take_of_length_le (by rw [length_wholeBlocks]), ← h.s]
      congr 1
      apply Fin.ext
      rw [h.pos]
      simp

/-- Encrypting byte by byte continues the block form (R113). -/
theorem encryptWhole_append (h : Absorbed c S0 l e) (bs : List Byte) :
    encryptWhole c S0 (l ++ bs) = encryptWhole c S0 l ++ (cryptBytes c .encrypt e bs).1 := by
  induction bs generalizing l e with
  | nil => simp
  | cons b bs ih =>
    rw [cryptBytes_cons]
    have := ih (h.takeByte b)
    rw [encryptWhole_snoc h b] at this
    simpa [cryptByte] using this

end Absorbed

end Sys2Proof.Machine
end

