-- ==== Sys2Proof/Tests/Slice0.lean ====
section
/-!
SUPPORT. The model's own tests, and a witness for the hypotheses of every statement that has some. Expected values are
those of spec/95_test_vectors.md (the section is named at each group) and of the examples of spec/30_encoding.md R70.
-/

namespace Sys2Proof.Machine.Tests

set_option Elab.async false

/-! Well-formedness: an operand that does not fit its eight bits is refused, form by form (R61, R62). -/

theorem test_wf_setkey : Instr.wellFormed (.setkey 255) = true ∧ Instr.wellFormed (.setkey 256) = false := by decide
theorem test_wf_settaglen : Instr.wellFormed (.settaglen 255) = true ∧ Instr.wellFormed (.settaglen 256) = false := by
  decide
theorem test_wf_init : Instr.wellFormed (.init 255 .decrypt) = true ∧ Instr.wellFormed (.init 256 .encrypt) = false := by
  decide
theorem test_wf_ad : Instr.wellFormed (.ad 255) = true ∧ Instr.wellFormed (.ad 256) = false := by decide
theorem test_wf_enc : Instr.wellFormed (.enc 255) = true ∧ Instr.wellFormed (.enc 256) = false := by decide
theorem test_wf_dec : Instr.wellFormed (.dec 255) = true ∧ Instr.wellFormed (.dec 256) = false := by decide
theorem test_wf_finalVerify :
    Instr.wellFormed (.finalVerify 255) = true ∧ Instr.wellFormed (.finalVerify 256) = false := by decide
theorem test_wf_noOperand : Instr.wellFormed .finalEmit = true ∧ Instr.wellFormed .abort = true ∧
    Instr.wellFormed .status = true := by decide

/-! Decoding, the words of 95 section 2, one legal word at least for every constructor. -/

/-- The command a word decodes to, the reason left out. -/
def decoded (w : Nat) : Option Instr := decodeTableWord 32 w

theorem test_decode_setkey : decoded 0x00002001 = some (.setkey 32) ∧ decoded 0x0000FF01 = some (.setkey 255) := by decide
theorem test_decode_settaglen : decoded 0x00000802 = some (.settaglen 8) ∧ decoded 0x00001102 = some (.settaglen 17) := by
  decide
theorem test_decode_init : decoded 0x00002003 = some (.init 32 .encrypt) ∧
    decoded 0x00012003 = some (.init 32 .decrypt) := by decide
theorem test_decode_ad : decoded 0x00000004 = some (.ad 0) ∧ decoded 0x00001104 = some (.ad 17) := by decide
theorem test_decode_enc : decoded 0x00000505 = some (.enc 5) := by decide
theorem test_decode_dec : decoded 0x00000E06 = some (.dec 14) := by decide
theorem test_decode_finalEmit : decoded 0x00000007 = some .finalEmit := by decide
theorem test_decode_finalVerify : decoded 0x00001008 = some (.finalVerify 16) := by decide
theorem test_decode_abort : decoded 0x00000009 = some .abort := by decide
theorem test_decode_status : decoded 0x0000000A = some .status := by decide
theorem test_decode_unassigned : decode 0x00000000 = .error .unassignedOp ∧ decode 0x0000000B = .error .unassignedOp ∧
    decode 0x000000FF = .error .unassignedOp := by decide
theorem test_decode_formatZ : decode 0x00000107 = .error .reservedBits ∧ decode 0x80000009 = .error .reservedBits ∧
    decode 0x0000010A = .error .reservedBits := by decide
theorem test_decode_formatLV : decode 0x00011004 = .error .reservedBits ∧ decode 0x00010802 = .error .reservedBits ∧
    decode 0x01000005 = .error .reservedBits := by decide
theorem test_decode_formatI : decode 0x00022003 = .error .reservedBits ∧ decode 0x00032003 = .error .reservedBits := by
  decide
theorem test_encode : encode (.init 32 .decrypt) = 0x00012003 ∧ encode (.dec 14) = 0x00000E06 ∧
    encode (.settaglen 12) = 0x00000C02 := by decide

/-! The datapath, 95 sections 3 and 4. -/

/-- The Block whose bytes count up from `n`. -/
def from16 (n : Nat) : Block := blockOfNats ((List.range 16).map (n + ·))
/-- Sixteen bytes `n`. -/
def all16 (n : Nat) : Block := blockOfNats (List.replicate 16 n)

theorem test_xor_and :
    xorBlock (from16 0) (all16 0xFF) = blockOfNats [0xff, 0xfe, 0xfd, 0xfc, 0xfb, 0xfa, 0xf9, 0xf8, 0xf7, 0xf6, 0xf5,
      0xf4, 0xf3, 0xf2, 0xf1, 0xf0] ∧
    andBlock (from16 0) (all16 0x5A) = blockOfNats [0, 0, 2, 2, 0, 0, 2, 2, 8, 8, 0x0a, 0x0a, 8, 8, 0x0a, 0x0a] := by
  decide +kernel
theorem test_gmul : gmul 0x57 0x02 = 0xAE ∧ gmul 0x57 0x13 = 0xFE ∧ gmul 0x57 0x83 = 0xC1 ∧ gmul 0xFF 0x03 = 0x1A ∧
    gmul 0x80 0x02 = 0x1B ∧ gmul 0x53 0xCA = 0x01 := by decide +kernel
theorem test_sbox : sbox 0x00 = 0x63 ∧ sbox 0x01 = 0x7C ∧ sbox 0x53 = 0xED ∧ sbox 0x80 = 0xCD ∧ sbox 0xFF = 0x16 := by
  decide +kernel
theorem test_shiftRows : shiftRows (from16 0) =
    blockOfNats [0x00, 0x05, 0x0a, 0x0f, 0x04, 0x09, 0x0e, 0x03, 0x08, 0x0d, 0x02, 0x07, 0x0c, 0x01, 0x06, 0x0b] := by
  decide +kernel
theorem test_mixColumns : mixColumns (blockOfNats [0xdb, 0x13, 0x53, 0x45, 0xf2, 0x0a, 0x22, 0x5c, 1, 1, 1, 1, 0xc6, 0xc6,
      0xc6, 0xc6]) =
    blockOfNats [0x8e, 0x4d, 0xa1, 0xbc, 0x9f, 0xdc, 0x58, 0x9d, 1, 1, 1, 1, 0xc6, 0xc6, 0xc6, 0xc6] := by
  decide +kernel
theorem test_aesRound : aesRound config (from16 0) Block.zero =
      blockOfNats [0x6a, 0x6a, 0x5c, 0x45, 0x2c, 0x6d, 0x33, 0x51, 0xb0, 0xd9, 0x5d, 0x61, 0x27, 0x9c, 0x21, 0x5c] ∧
    aesRound config (all16 0xFF) (from16 0) =
      blockOfNats [0x16, 0x17, 0x14, 0x15, 0x12, 0x13, 0x10, 0x11, 0x1e, 0x1f, 0x1c, 0x1d, 0x1a, 0x1b, 0x18, 0x19] := by
  decide +kernel

/-- `S[i]` is the sixteen bytes `i`, 95 section 4.1. -/
def equalBytes : SixBlocks := ⟨all16 0, all16 1, all16 2, all16 3, all16 4, all16 5⟩
/-- `S[i]` is the bytes `16i` up, 95 section 4.1. -/
def countUp : SixBlocks := ⟨from16 0, from16 16, from16 32, from16 48, from16 64, from16 80⟩

theorem test_update_equalBytes : update config equalBytes =
    ⟨all16 0x6b, all16 0x62, all16 0x7e, all16 0x74, all16 0x7f, all16 0xf7⟩ := by decide +kernel
theorem test_update_countUp : (update config countUp).s0 =
      blockOfNats [0xc8, 0xa7, 0x80, 0x31, 0xb7, 0xad, 0x71, 0x35, 0x53, 0xa0, 0xc1, 0x4f, 0x78, 0x0f, 0xa7, 0xc3] ∧
    (update config countUp).s5 =
      blockOfNats [0xa2, 0x61, 0x15, 0xe3, 0x1a, 0x53, 0x06, 0x5a, 0x4e, 0x02, 0x48, 0x39, 0x79, 0x34, 0x8e, 0x80] := by
  decide +kernel
theorem test_absorbBlock : (absorbBlock config countUp (all16 0xAA)).s0 =
    blockOfNats [0x62, 0x0d, 0x2a, 0x9b, 0x1d, 0x07, 0xdb, 0x9f, 0xf9, 0x0a, 0x6b, 0xe5, 0xd2, 0xa5, 0x0d, 0x69] := by
  decide +kernel
theorem test_keystream : keystream equalBytes = all16 2 := by decide +kernel
theorem test_isZero : isZero (blockOfNats (List.replicate 15 0 ++ [0x80])) 16 = false ∧
    isZero (blockOfNats (List.replicate 15 0 ++ [0x80])) 15 = true ∧
    isZero (blockOfNats (List.replicate 8 0 ++ List.replicate 8 0xFF)) 8 = true := by decide +kernel
theorem test_lengthBlock : lengthBlock 40 168 = blockOfNats [0x28, 0, 0, 0, 0, 0, 0, 0, 0xa8, 0, 0, 0, 0, 0, 0, 0] := by
  decide +kernel

/-- The State after `INIT` under the key `00`..`1f` and the nonce `20`..`3f`, 95 section 4.1, second case. -/
def opened : SixBlocks :=
  { s0 := blockOfNats [0xa3, 0xf0, 0xeb, 0x54, 0xde, 0xec, 0x2c, 0x73, 0x97, 0xba, 0x89, 0x1e, 0x07, 0xdb, 0xa2, 0x56]
    s1 := blockOfNats [0x02, 0xc9, 0xe5, 0x54, 0xa5, 0x73, 0xc7, 0x61, 0xd3, 0x05, 0x51, 0x0b, 0x06, 0x8a, 0x51, 0x3b]
    s2 := blockOfNats [0x82, 0x84, 0xd4, 0xac, 0x9c, 0x73, 0xcb, 0xa8, 0x14, 0xb2, 0x70, 0xe5, 0xb2, 0x0f, 0x98, 0x03]
    s3 := blockOfNats [0xd5, 0x92, 0xa9, 0xff, 0x88, 0xe9, 0x22, 0x49, 0x7f, 0xcf, 0xd1, 0x9a, 0xa0, 0x6f, 0x40, 0x0c]
    s4 := blockOfNats [0x90, 0xdb, 0xb3, 0x44, 0x4d, 0x3c, 0x79, 0x49, 0xf1, 0xb6, 0xd2, 0x62, 0xa2, 0x2b, 0x89, 0x84]
    s5 := blockOfNats [0x1c, 0x3a, 0xd6, 0x39, 0x29, 0xb6, 0x2b, 0xc3, 0x19, 0x15, 0xef, 0x0b, 0x16, 0xdf, 0xd5, 0x69] }

/-! Single steps, 95 sections 4.1 to 4.7. -/

/-- Message A's `derived`, 95 section 4.4: the tag of the key `00`..`1f`, nonce `20`..`3f` message. -/
def tagA : List Nat := [0xec, 0x2d, 0xa5, 0x07, 0xd9, 0x24, 0x3f, 0xdf, 0x16, 0x60, 0xeb, 0xbf, 0x00, 0x16, 0xb6, 0x0c]

/-- An idle engine holding the key `00`..`1f`. -/
def keyed : Engine := { Engine.reset with k0 := from16 0, k1 := from16 16, keyv := true }
/-- An engine with an invocation just opened under that key and the nonce `20`..`3f`. -/
def open1 (dir : Dir) : Engine := { keyed with s := opened, dir := dir, phase := .initialized }
/-- That engine encrypting or decrypting, five payload bytes `40`..`44` waiting. -/
def midway (dir : Dir) : Engine :=
  { keyed with s := opened, dir := dir, phase := .processingPayload, msgbits := 40,
               buf := blockOfNats [0x40, 0x41, 0x42, 0x43, 0x44], pos := 5 }
/-- The State `initialize` gives for the all-zero key and nonce, 95 section 4.1, first case. -/
def openedZero : SixBlocks :=
  { s0 := blockOfNats [0x13, 0xd8, 0xe4, 0x10, 0x42, 0x67, 0xfa, 0x8c, 0x85, 0x1e, 0xea, 0x19, 0xdc, 0x35, 0x0d, 0x6e]
    s1 := blockOfNats [0xc2, 0xa6, 0x8d, 0x50, 0xf2, 0x2f, 0x42, 0x5c, 0x91, 0x54, 0x04, 0x15, 0x02, 0xc3, 0x1e, 0xb7]
    s2 := blockOfNats [0x54, 0x6a, 0x17, 0xde, 0x93, 0xc7, 0x8a, 0xd3, 0xd0, 0xf0, 0x59, 0x05, 0xdf, 0xd3, 0x01, 0x0d]
    s3 := blockOfNats [0x1e, 0x05, 0xd6, 0x40, 0x17, 0x1a, 0x45, 0x36, 0x01, 0x49, 0x8e, 0x1c, 0x0c, 0xb2, 0x06, 0x36]
    s4 := blockOfNats [0xf5, 0x3c, 0xbf, 0x45, 0x9a, 0x46, 0xb4, 0x87, 0xcd, 0xc6, 0x3e, 0x0d, 0x79, 0x0f, 0x71, 0x77]
    s5 := blockOfNats [0x9a, 0x15, 0x27, 0xfc, 0x3c, 0xeb, 0x81, 0xda, 0x8b, 0x88, 0x7d, 0xe3, 0xe8, 0x9c, 0x18, 0x62] }
/-- An engine with an invocation opened under the all-zero key and nonce. -/
def openZero (dir : Dir) : Engine := { Engine.reset with keyv := true, s := openedZero, dir := dir, phase := .initialized }
/-- `derived` for the empty message under the all-zero key and nonce, 95 section 4.4. -/
def tagZero : List Nat := [0xf7, 0xa0, 0x87, 0x8f, 0x68, 0xbd, 0x08, 0x3e, 0x80, 0x65, 0x35, 0x40, 0x71, 0xfc, 0x27, 0xc3]

/-- The bytes given as numbers. -/
def bytesOf (l : List Nat) : List Byte := l.map fun n => BitVec.ofNat 8 n
/-- The machine with the registers `e` and one packet to take. -/
def holding (e : Engine) (w : Nat) (l : List Nat) : State :=
  { eng := e, din := dataInOf [], pending := [.command { cmd := BitVec.ofNat 32 w, din := dataInOf (bytesOf l) }]
    responses := [] }
/-- The machine after taking it. -/
def after (e : Engine) (w : Nat) (l : List Nat) : State :=
  match step (holding e w l) with
  | .next t => t
  | .fault r => nomatch r
  | .refused _ => State.reset
/-- The response word of that step. -/
def word (e : Engine) (w : Nat) (l : List Nat) : List Nat := (after e w l).responses.map fun r => r.rsp.toNat
/-- The output bytes of that step. -/
def out (e : Engine) (w : Nat) (l : List Nat) : List Nat := (outputBytes (after e w l).responses).map (·.toNat)

theorem test_setkey_loads : word Engine.reset 0x00002001 (List.range 32) = [0x00100080] ∧
    (after Engine.reset 0x00002001 (List.range 32)).eng.k1 = from16 16 := by decide +kernel
theorem test_setkey_refused : word keyed 0x00001F01 (List.range 31) = [0x00100084] ∧
    word (open1 .decrypt) 0x00001F01 (List.range 31) = [0x00300092] := by decide +kernel
theorem test_settaglen_sets : word Engine.reset 0x00000802 [] = [0x00080000] := by decide +kernel
theorem test_settaglen_refused : word Engine.reset 0x00000702 [] = [0x00100005] ∧
    word Engine.reset 0x00001102 [] = [0x00100005] := by decide +kernel
theorem test_init_opens : word keyed 0x00012003 ((List.range 32).map (32 + ·)) = [0x00300090] := by decide +kernel
/-- The whole of `initialize`, 95 section 4.1, second case. -/
theorem test_initialize : initState config (from16 0) (from16 16) (from16 32) (from16 48) = opened := by decide +kernel
theorem test_init_refused : word Engine.reset 0x00001F03 [] = [0x00100003] ∧ word keyed 0x00012103 [] = [0x00100086] ∧
    word (open1 .decrypt) 0x00000503 [] = [0x00300092] := by decide +kernel
/-- `AD` of eight bytes that complete a Block, 95 section 4.2 row 4. -/
theorem test_ad_absorbs :
    let e := { openZero .encrypt with phase := .absorbingAd, adbits := 64, pos := 8, buf := blockOfNats (List.range 8) }
    let t := after e 0x00000804 [8, 9, 10, 11, 12, 13, 14, 15]
    word e 0x00000804 [8, 9, 10, 11, 12, 13, 14, 15] = [0x001000A0] ∧
    t.eng.s.s0 = blockOfNats [0x0d, 0x18, 0xb7, 0x99, 0xc1, 0x46, 0x59, 0xbf, 0x15, 0x95, 0x79, 0xe9, 0x0b, 0x14, 0xea,
      0xa0] ∧ t.eng.adbits = 128 ∧ t.eng.pos = 0 := by decide +kernel
/-- The counter wraps, 95 section 4.7; and a beat of 17 bytes is refused. -/
theorem test_ad_wraps :
    (after { openZero .encrypt with phase := .absorbingAd, adbits := 0xFFFFFFFFFFFFFF80 } 0x00001004 []).eng.adbits = 0 ∧
    word (openZero .encrypt) 0x00001104 [] = [0x00100096] := by decide +kernel
/-- The straddling beat, 95 section 4.3 row 2. -/
theorem test_enc_straddles :
    word (midway .encrypt) 0x00001005 ((List.range 16).map (0x45 + ·)) = [0x001010B0] ∧
    out (midway .encrypt) 0x00001005 ((List.range 16).map (0x45 + ·)) =
      [0xdd, 0xd1, 0xa4, 0x67, 0x6d, 0x76, 0xa9, 0x5e, 0x3c, 0x43, 0x99, 0x2c, 0x0e, 0xe0, 0x56, 0x88] := by
  decide +kernel
/-- Wrong direction before wrong length, 95 section 4.6; and the counter wrap of 95 section 4.7. -/
theorem test_enc_refused_wraps : word (open1 .decrypt) 0x00001105 [] = [0x00300092] ∧
    (after { midway .encrypt with pos := 15, msgbits := 0xFFFFFFFFFFFFFFF8 } 0x00000105 [0]).eng.msgbits = 0 := by
  decide +kernel
theorem test_dec_recovers : word (open1 .decrypt) 0x00000706 [0x4e, 0xe9, 0x42, 0xc6, 0x0d, 0xdd, 0xd1] = [0x003007B0] ∧
    out (open1 .decrypt) 0x00000706 [0x4e, 0xe9, 0x42, 0xc6, 0x0d, 0xdd, 0xd1] =
      [0x40, 0x41, 0x42, 0x43, 0x44, 0x45, 0x46] := by decide +kernel
theorem test_dec_refused : word (open1 .decrypt) 0x00001106 [] = [0x00300096] ∧
    word (open1 .encrypt) 0x00000106 [0] = [0x00100092] ∧ word keyed 0x00000106 [0] = [0x00100082] := by decide +kernel
theorem test_finalEmit_tag : word (openZero .encrypt) 0x00000007 [] = [0x001010D0] ∧
    out (openZero .encrypt) 0x00000007 [] = tagZero := by decide +kernel
theorem test_finalEmit_refused : word keyed 0x00000007 [] = [0x00100082] ∧
    word (midway .decrypt) 0x00000007 [] = [0x003000B2] := by decide +kernel
theorem test_finalVerify_accepts : word (openZero .decrypt) 0x00001008 tagZero = [0x001000E0] := by decide +kernel
theorem test_finalVerify_refused : word (midway .decrypt) 0x00000F08 tagA = [0x003000B6] ∧
    word (midway .encrypt) 0x00001008 tagA = [0x001000B2] := by decide +kernel
theorem test_abort_clears : word (midway .decrypt) 0x00000009 [] = [0x00100080] ∧
    (after (midway .decrypt) 0x00000009 []).eng = keyed := by decide +kernel
theorem test_status_reports : word Engine.reset 0x0000000A [] = [0x00100000] ∧
    word { open1 .decrypt with phase := .absorbingAd, taglen := 12 } 0x0000000A [] = [0x002C00A0] := by decide +kernel
/-- An illegal word in an open invocation, 95 section 4.6; the reset event gives no response. -/
theorem test_illegal_and_reset : word (open1 .decrypt) 0x0000000B [] = [0x00300091] ∧
    word Engine.reset 0x00012104 [] = [0x00100001] ∧
    (match step { holding (midway .encrypt) 0 [] with pending := [.reset] } with
      | .next t => decide (t.eng = Engine.reset ∧ t.responses = [])
      | .fault _ => false
      | .refused _ => false) = true := by decide +kernel
/-- The word the host places is the one the next step takes. -/
theorem test_withFetchWord :
    (match step (State.reset.withFetchWord 32 0x00000C02) with
      | .next t => decide (t.eng.taglen = 12)
      | .fault _ => false
      | .refused _ => false) = true := by decide +kernel
/-- The pseudo-command of R69: 37 bytes are beats of 16, 16 and 5. -/
theorem test_starBeats : (starBeats (List.replicate 37 (0 : Byte))).map List.length = [16, 16, 5] ∧
    (AsmLine.ad (List.replicate 3 0) (some 17)).packet.cmd = 0x00001104 := by decide +kernel

/-! Witnesses: for every statement with hypotheses, a concrete state and operands that meet them. -/

/-- The machine with the registers `e` and the data bytes `l` on `DIN`. -/
def at' (e : Engine) (l : List Nat) : State :=
  { eng := e, din := dataInOf (bytesOf l), pending := [], responses := [] }

theorem open1_inv (dir : Dir) : (open1 dir).Inv where
  taglen_range := by cases dir <;> decide
  buf_padded := fun j _ => Block.byte_zero j
  not_transient := by simp [open1]
  cleared := by simp [open1, BetweenInvocations]
  keyed := fun _ => rfl
  fresh := fun _ => ⟨rfl, rfl, rfl⟩
  absorbing := by simp [open1]
  processing := by simp [open1]
  whole_bytes := by cases dir <;> decide

theorem midway_inv (dir : Dir) : (midway dir).Inv where
  taglen_range := by cases dir <;> decide
  buf_padded := by cases dir <;> decide +kernel
  not_transient := by simp [midway]
  cleared := by simp [midway, BetweenInvocations]
  keyed := fun _ => rfl
  fresh := by simp [midway]
  absorbing := by simp [midway]
  processing := fun _ => by cases dir <;> decide
  whole_bytes := by cases dir <;> decide

theorem keyed_inv : keyed.Inv where
  taglen_range := by decide
  buf_padded := fun j _ => Block.byte_zero j
  not_transient := by simp [keyed]
  cleared := fun _ => ⟨rfl, rfl, rfl, rfl, rfl, rfl⟩
  keyed := fun _ => rfl
  fresh := by simp [keyed]
  absorbing := by simp [keyed]
  processing := by simp [keyed]
  whole_bytes := by decide

/-- An idle machine that holds a key, for the statements over whole runs. -/
theorem idle_state_inv : (at' keyed []).Inv ∧ BetweenInvocations (at' keyed []).eng.phase :=
  ⟨⟨keyed_inv, fun _ hr => absurd hr List.not_mem_nil⟩, .inl rfl⟩

theorem witness_DecodeOfEncodeIsIdentity : Instr.WellFormed (.finalVerify 255) ∧ Instr.WellFormed (.init 0 .decrypt) ∧
    Instr.WellFormed .status := by decide
theorem witness_EncodeOfDecodeIsIdentity : decode 0x0001FF03 = .ok (.init 255 .decrypt) ∧ decode 0x00000007 = .ok .finalEmit :=
  ⟨rfl, rfl⟩
theorem witness_OpcodeMapDecidesTheCommand : Instr.row (.init 0 .encrypt) ∈ opcodeTable := by decide
theorem witness_StepRunsDecodedCommand : (holding keyed 0x0000000A []).pending =
      .command { cmd := 0x0000000A, din := dataInOf [] } :: [] ∧ decode 0x0000000A = .ok .status := ⟨rfl, rfl⟩
theorem witness_ResetEventRestoresEveryRegister :
    ({ at' (midway .encrypt) [] with pending := [.reset, .reset] } : State).pending = .reset :: [.reset] := rfl
theorem witness_EngineWaitsForACommand : (at' (midway .encrypt) []).pending = [] := rfl
/-- Both clauses, at the first reserved bit of each format and at the ends of the opcodes. -/
theorem witness_IllegalWordsAnsweredIllegalCmd :
    (holding keyed 0x0000000B []).pending = .command { cmd := 0x0000000B, din := dataInOf [] } :: [] ∧
    ¬ LegalWord 0x0000000B ∧ ¬ LegalWord 0x00000000 ∧ ¬ LegalWord 0x00000107 ∧ ¬ LegalWord 0x00010001 ∧
    ¬ LegalWord 0x00020003 ∧ LegalWord 0x0001FF03 ∧ LegalWord 0x0000FF08 ∧ LegalWord 0x0000000A ∧ LegalWord 0x00000001 :=
  ⟨rfl, by simp [LegalWord]⟩
theorem witness_EveryPacketAnsweredOnce :
    (holding keyed 0xFFFFFFFF []).pending = .command { cmd := 0xFFFFFFFF, din := dataInOf [] } :: [] := rfl
/-- Key lengths on both sides of 32; an open invocation. -/
theorem witness_SetkeyLoadsTheKey : BetweenInvocations (at' keyed []).eng.phase ∧
    ¬ BetweenInvocations (at' (open1 .encrypt) []).eng.phase ∧ (31 : Nat) ≠ 32 ∧ (33 : Nat) ≠ 32 :=
  ⟨.inl rfl, by simp [at', open1, BetweenInvocations], by decide⟩
/-- Tag lengths 8 and 16, 7 and 17; an open invocation. -/
theorem witness_SettaglenSetsTheLength : BetweenInvocations (at' keyed []).eng.phase ∧
    ¬ BetweenInvocations (at' (midway .encrypt) []).eng.phase ∧ ((8 ≤ 8 ∧ 8 ≤ 16) ∧ (8 ≤ 16 ∧ 16 ≤ 16)) ∧
    ((7 < 8 ∨ 16 < 7) ∧ (17 < 8 ∨ 16 < 17)) :=
  ⟨.inl rfl, by simp [at', midway, BetweenInvocations], by decide⟩
/-- Each clause: a key and length 32, an open invocation, no key, lengths 31 and 33. -/
theorem witness_InitOpensAnInvocation :
    (BetweenInvocations (at' keyed []).eng.phase ∧ (at' keyed []).eng.keyv = true) ∧
    ¬ BetweenInvocations (at' (open1 .decrypt) []).eng.phase ∧
    (BetweenInvocations (at' Engine.reset []).eng.phase ∧ (at' Engine.reset []).eng.keyv = false) ∧
    (31 : Nat) ≠ 32 ∧ (33 : Nat) ≠ 32 :=
  ⟨⟨.inl rfl, rfl⟩, by simp [at', open1, BetweenInvocations], ⟨.inl rfl, rfl⟩, by decide⟩
/-- The longest beat on a buffer that has fifteen bytes waiting. -/
theorem witness_AdTakesABeat :
    let e := { open1 .encrypt with phase := .absorbingAd, pos := 15, buf := blockOfNats (List.replicate 15 7) }
    (e.phase = .initialized ∨ e.phase = .absorbingAd) ∧ 16 ≤ 16 ∧ TailPadded e :=
  ⟨.inr rfl, by decide, by unfold TailPadded; decide +kernel⟩
theorem witness_EncEncryptsABeat : InvocationOpen (at' (midway .encrypt) []).eng.phase ∧
    (at' (midway .encrypt) []).eng.dir = .encrypt ∧ 16 ≤ 16 ∧ TailPadded (at' (midway .encrypt) []).eng :=
  ⟨.inr (.inr rfl), rfl, by decide, (midway_inv .encrypt).buf_padded⟩
theorem witness_DecDecryptsABeat : InvocationOpen (at' (midway .decrypt) []).eng.phase ∧
    (at' (midway .decrypt) []).eng.dir = .decrypt ∧ 16 ≤ 16 ∧ TailPadded (at' (midway .decrypt) []).eng :=
  ⟨.inr (.inr rfl), rfl, by decide, (midway_inv .decrypt).buf_padded⟩
theorem witness_FinalEmitReturnsTheTag : InvocationOpen (at' (openZero .encrypt) []).eng.phase ∧
    (at' (openZero .encrypt) []).eng.dir = .encrypt := ⟨.inl rfl, rfl⟩
theorem derived_zero (dir : Dir) : derivedOf config (openZero dir) = blockOfNats tagZero := by
  have h : (finalize config openedZero 0 0).2 = blockOfNats tagZero := by decide +kernel
  exact h
/-- Both verdicts, at the tag lengths 16 and 8. -/
theorem witness_FinalVerifyComparesTheTag :
    let e := openZero .decrypt
    let e8 := { openZero .decrypt with taglen := 8 }
    InvocationOpen e.phase ∧ e.dir = .decrypt ∧ 16 = e.taglen.toNat ∧ 8 = e8.taglen.toNat ∧
    (at' e tagZero).din.first 16 = (derivedOf config e).toList.take 16 ∧
    (at' e (0xf6 :: tagZero.tail)).din.first 16 ≠ (derivedOf config e).toList.take 16 ∧
    (at' e8 (tagZero.take 8)).din.first 8 = (derivedOf config e8).toList.take 8 ∧
    (at' e8 [0]).din.first 8 ≠ (derivedOf config e8).toList.take 8 := by
  have h8 : derivedOf config { openZero .decrypt with taglen := 8 } = blockOfNats tagZero := derived_zero .decrypt
  simp only [derived_zero, h8]
  exact ⟨.inl rfl, rfl, rfl, rfl, by decide +kernel⟩
/-- A command that is allowed, one whose phase is wrong, one whose direction is wrong. -/
theorem witness_PhaseErrExactlyWhereNotAllowed :
    (at' (open1 .decrypt) []).eng.phase ≠ .finalized ∧ AllowedInPhase (.ad 0) (open1 .decrypt).phase ∧
    ¬ AllowedInPhase (.setkey 32) (open1 .decrypt).phase ∧ ¬ AllowedInDir .finalEmit (open1 .decrypt).dir :=
  ⟨by simp [at', open1], .inl rfl, by simp [AllowedInPhase, BetweenInvocations, open1],
    by simp [AllowedInDir, open1]⟩
/-- The right sides of the five statements that say exactly when an error is answered. -/
theorem witness_ErrorsExactly :
    ¬ AllowedInPhase (.ad 17) (at' keyed []).eng.phase ∧
    ¬ AllowedInDir (.enc 17) (at' (open1 .decrypt) []).eng.dir ∧
    (BetweenInvocations (at' Engine.reset []).eng.phase ∧ (at' Engine.reset []).eng.keyv = false) ∧
    (AllowedInPhase (.dec 17) (open1 .decrypt).phase ∧ AllowedInDir (.dec 17) (open1 .decrypt).dir ∧ 16 < 17) ∧
    (AllowedInPhase (.finalVerify 15) (midway .decrypt).phase ∧ AllowedInDir (.finalVerify 15) (midway .decrypt).dir ∧
      15 ≠ (midway .decrypt).taglen.toNat) :=
  ⟨by simp [AllowedInPhase, at', keyed], by simp [AllowedInDir, at', open1], ⟨.inl rfl, rfl⟩,
    ⟨.inl rfl, rfl, by decide⟩, ⟨.inr (.inr rfl), rfl, by decide⟩⟩
/-- One state and command for each of the five clauses. -/
theorem witness_FirstErrorIsReported :
    ¬ AllowedInPhase .finalEmit keyed.phase ∧
    (AllowedInPhase .finalEmit (midway .decrypt).phase ∧ ¬ AllowedInDir .finalEmit (midway .decrypt).dir) ∧
    (AllowedInPhase (.init 31 .encrypt) Engine.reset.phase ∧ ¬ KeyPresent (.init 31 .encrypt) Engine.reset.keyv) ∧
    (AllowedInPhase (.settaglen 7) keyed.phase ∧ ¬ OperandAccepted (.settaglen 7) keyed.taglen) ∧
    Runs (.finalVerify 16) (midway .decrypt) :=
  ⟨by simp [AllowedInPhase, keyed, InvocationOpen], ⟨.inr (.inr rfl), by simp [AllowedInDir, midway]⟩,
    ⟨.inl rfl, by simp [KeyPresent]⟩, ⟨.inl rfl, by simp [OperandAccepted]⟩,
    ⟨.inr (.inr rfl), rfl, trivial, rfl⟩⟩
/-- An illegal word at an engine in the middle of a payload: the answer has the code 1. -/
theorem witness_RefusedPacketsWriteNothing :
    ∃ t, step (holding (midway .decrypt) 0x0000000B []) = .next t ∧
      Answered { holding (midway .decrypt) 0x0000000B [] with din := dataInOf [], pending := [] } t 1 [] ∧
      (1 : Nat) ≠ 0 ∧ (1 : Nat) ≠ 7 :=
  ⟨_, rfl, finish_answered _ _ .illegalCmd [] (by simp), by decide⟩
/-- Each clause: a command that runs, one that does not, and one that ends the invocation. -/
theorem witness_PhaseFollowsTheTable : Runs (.ad 16) (open1 .encrypt) ∧ ¬ Runs (.ad 17) (open1 .encrypt) ∧
    InvocationOpen (open1 .encrypt).phase ∧ ¬ InvocationOpen (after (open1 .encrypt) 0x00000009 []).eng.phase :=
  ⟨⟨.inl rfl, trivial, trivial, Nat.le_refl 16⟩, by simp [Runs, OperandAccepted], .inl rfl,
    by rw [show (after (open1 .encrypt) 0x00000009 []).eng.phase = .idle from rfl]; simp [InvocationOpen]⟩
theorem witness_OutputLengthByCommand : (midway .encrypt).taglen.toNat ≤ 16 ∧ Runs .finalEmit (midway .encrypt) ∧
    ¬ Runs (.enc 17) (midway .encrypt) :=
  ⟨by decide, ⟨.inr (.inr rfl), rfl, trivial, trivial⟩, by simp [Runs, OperandAccepted]⟩
theorem witness_CommandsWriteOnlyTheirRegisters : exec .status (at' (midway .encrypt) []) =
    .next (State.finish (at' (midway .encrypt) []) (midway .encrypt) .ok []) := rfl
theorem witness_ContextChangesOnlyBySetup : ∃ t, step (holding keyed 0x00000802 []) = .next t ∧
    t.eng.taglen ≠ keyed.taglen := ⟨_, rfl, by decide⟩
theorem witness_KeyIsReadOnlyByInit : ∀ len dir, Instr.finalEmit ≠ .init len dir := by simp
/-- Two engines that differ in `S`, `BUF`, `POS` and a counter. -/
theorem witness_NoReadbackOfSecrets :
    let s := at' (midway .encrypt) []
    let s' := at' { openZero .encrypt with phase := .processingPayload } []
    (∀ len, Instr.status ≠ .enc len ∧ Instr.status ≠ .dec len ∧ Instr.status ≠ .finalVerify len) ∧
    Instr.status ≠ .finalEmit ∧ s'.eng.phase = s.eng.phase ∧ s'.eng.keyv = s.eng.keyv ∧ s'.eng.taglen = s.eng.taglen ∧
    s'.eng.dir = s.eng.dir ∧ s'.responses = s.responses ∧ s'.eng.s ≠ s.eng.s ∧ s'.eng.pos ≠ s.eng.pos :=
  ⟨by simp, by simp, rfl, rfl, rfl, rfl, rfl, by decide +kernel, by decide⟩
/-- Two data ports that differ beyond the operand. -/
theorem witness_UnusedLanesAreIgnored :
    (dataInOf (bytesOf [1, 2, 3, 4])).first (operandBytes (.enc 3) 16) =
      (dataInOf (bytesOf [1, 2, 3, 5])).first (operandBytes (.enc 3) 16) ∧
    dataInOf (bytesOf [1, 2, 3, 4]) ≠ dataInOf (bytesOf [1, 2, 3, 5]) := by decide +kernel
/-- A packet taken by an engine in the middle of a payload. -/
theorem witness_EveryStepKeepsTheInvariant : (holding (midway .encrypt) 0x00001005 []).Inv ∧
    ∃ t, step (holding (midway .encrypt) 0x00001005 []) = .next t :=
  ⟨⟨midway_inv .encrypt, fun _ hr => absurd hr List.not_mem_nil⟩, step_next _⟩
theorem witness_AbortSetkeyInitRecovers : (List.replicate 32 (1 : Byte)).length = 32 ∧
    (List.replicate 32 (2 : Byte)).length = 32 := by decide
/-- Two engines under one key: idle with tag length 16, and after a failed verification with tag length 8. -/
theorem witness_InitDependsOnKeyAndNonceOnly :
    let s := at' keyed []
    let s' := at' { keyed with taglen := 8, phase := .authFailed } []
    Runs (.init 32 .encrypt) s.eng ∧ Runs (.init 32 .decrypt) s'.eng ∧ s'.eng.k0 = s.eng.k0 ∧ s'.eng.k1 = s.eng.k1 ∧
      s'.din = s.din :=
  ⟨⟨.inl rfl, trivial, rfl, rfl⟩, ⟨.inr (.inr (.inr rfl)), trivial, rfl, rfl⟩, rfl, rfl, rfl⟩
theorem witness_EncAndDecReturnTheSameBytes : InvocationOpen (at' (midway .encrypt) []).eng.phase ∧ 16 ≤ 16 :=
  ⟨.inr (.inr rfl), by decide⟩
theorem witness_ShorterTagIsAPrefix : InvocationOpen (at' (midway .encrypt) []).eng.phase ∧
    (at' (midway .encrypt) []).eng.dir = .encrypt ∧ (8 ≤ (8 : BitVec 5).toNat ∧ (8 : BitVec 5).toNat ≤ 16) ∧
    (8 ≤ (16 : BitVec 5).toNat ∧ (16 : BitVec 5).toNat ≤ 16) := ⟨.inr (.inr rfl), rfl, by decide⟩
/-- Beats of zero, one and sixteen bytes. -/
def beats : List (List Byte) := [[], [1], List.replicate 16 2]
theorem beats_short : ∀ b ∈ beats, b.length ≤ 16 := by decide
theorem witness_AdBeatsEqualOneCall : (at' (open1 .encrypt) []).eng.Inv ∧ (at' (open1 .encrypt) []).eng.phase = .initialized ∧
    ∀ b ∈ beats, b.length ≤ 16 := ⟨open1_inv _, rfl, beats_short⟩
theorem witness_EncBeatsEqualBlockForm : (at' (open1 .encrypt) []).eng.Inv ∧
    ((at' (open1 .encrypt) []).eng.phase = .initialized ∨ (at' (open1 .encrypt) []).eng.phase = .absorbingAd) ∧
    (at' (open1 .encrypt) []).eng.dir = .encrypt ∧ ∀ b ∈ beats, b.length ≤ 16 :=
  ⟨open1_inv _, .inl rfl, rfl, beats_short⟩
theorem witness_SealComputesTheAlgorithm : (at' keyed []).Inv ∧ BetweenInvocations (at' keyed []).eng.phase ∧
    (List.replicate 32 (1 : Byte)).length = 32 ∧ ∀ b ∈ beats, b.length ≤ 16 :=
  ⟨idle_state_inv.1, idle_state_inv.2, by decide, beats_short⟩
/-- The same strings in other beats, and a tag of `TAGLEN` bytes. -/
theorem witness_BeatLengthsDoNotMatter : (at' keyed []).Inv ∧ BetweenInvocations (at' keyed []).eng.phase ∧
    (List.replicate 32 (1 : Byte)).length = 32 ∧
    (∀ b ∈ beats ++ [[1, 2], List.replicate 15 2] ++ beats ++ [[1, 2], List.replicate 15 2], b.length ≤ 16) ∧
    [[1, 2], List.replicate 15 2].flatten = beats.flatten ∧
    (List.replicate 16 (0 : Byte)).length = (at' keyed []).eng.taglen.toNat :=
  ⟨idle_state_inv.1, idle_state_inv.2, by decide, by decide, by decide, by decide⟩
/-- Seven ciphertext bytes of 95 section 4.3 in one beat when encrypting, in two when decrypting. -/
theorem witness_DecryptionRecoversThePlaintext :
    let s := at' (open1 .encrypt) []
    let s' := at' (open1 .decrypt) []
    let msg : List (List Byte) := [bytesOf [0x40, 0x41, 0x42, 0x43, 0x44, 0x45, 0x46]]
    let ct : List (List Byte) := [bytesOf [0x4e, 0xe9, 0x42], bytesOf [0xc6, 0x0d, 0xdd, 0xd1]]
    s.eng.Inv ∧ InvocationOpen s.eng.phase ∧ s.eng.dir = .encrypt ∧ s'.eng = { s.eng with dir := .decrypt } ∧
    (∀ b ∈ msg ++ ct, b.length ≤ 16) ∧
    (match Sys2Proof.core.run msg.length (s.withPackets (encPackets msg)) with
      | .next t => decide (ct.flatten = outputBytes (State.responses t))
      | .fault _ => false
      | .refused _ => false) = true :=
  ⟨open1_inv _, .inl rfl, rfl, rfl, by decide, by decide +kernel⟩
/-- Message A of 95 section 4.4 from its open invocation on: four packets, the ciphertext and the tag. -/
theorem test_messageA :
    let ps := adPackets [bytesOf [0xa0, 0xa1, 0xa2, 0xa3, 0xa4]] ++
      encPackets [bytesOf ((List.range 16).map (0x40 + ·)), bytesOf ((List.range 5).map (0x50 + ·))] ++
      [packetOf .finalEmit []]
    (match Sys2Proof.core.run 4 (State.withPackets (at' (open1 .encrypt) []) ps) with
      | .next t => (outputBytes (State.responses t)).map (·.toNat)
      | .fault _ => []
      | .refused _ => []) =
    [0x3c, 0x1e, 0xf0, 0x46, 0x98, 0x6e, 0xf2, 0x44, 0x7d, 0x3a, 0x99, 0xa1, 0x93, 0x5e, 0x6e, 0xea, 0x57, 0xcf, 0xa2,
      0x9b, 0xcf] ++ tagA := by decide +kernel
/-- An empty message: what it outputs is one tag of sixteen bytes. -/
theorem witness_OpenVerifiesWhatSealGave :
    let s := at' keyed []
    let z := List.replicate 32 (0 : Byte)
    s.Inv ∧ BetweenInvocations s.eng.phase ∧ z.length = 32 ∧
    ∃ (t : State) (rs : List Response) (tag : List Byte),
      Sys2Proof.core.run (sealBeats z z [] []).length (s.withPackets (sealBeats z z [] [])) = .next t ∧
      t.responses = s.responses ++ rs ∧ tag.length = s.eng.taglen.toNat ∧
      outputBytes rs = ([] : List (List Byte)).flatten ++ tag := by
  intro s z
  have h : (match Sys2Proof.core.run (sealBeats z z [] []).length (s.withPackets (sealBeats z z [] [])) with
      | .next t => (outputBytes (State.responses t)).length
      | .fault _ => 0
      | .refused _ => 0) = 16 := by decide +kernel
  refine ⟨idle_state_inv.1, idle_state_inv.2, by decide, ?_⟩
  cases hr : Sys2Proof.core.run (sealBeats z z [] []).length (s.withPackets (sealBeats z z [] [])) with
  | next t =>
    rw [hr] at h
    exact ⟨t, State.responses t, outputBytes (State.responses t), rfl, rfl, h, rfl⟩
  | fault r => exact nomatch r
  | refused r => rw [hr] at h; simp at h
/-- Strings of one and of fourteen bytes. -/
theorem witness_PaddingIsToldApartByAdbits : (at' (open1 .encrypt) []).eng.Inv ∧
    (at' (open1 .encrypt) []).eng.phase = .initialized ∧ (0 < [(1 : Byte)].length ∧ [(1 : Byte)].length < 15) ∧
    (0 < (List.replicate 14 (1 : Byte)).length ∧ (List.replicate 14 (1 : Byte)).length < 15) :=
  ⟨open1_inv _, rfl, by decide, by decide⟩
/-- Why `update` is not invertible (assumption log 11): two States with one image. -/
theorem test_update_collides :
    update config ⟨all16 0, all16 0, all16 0, all16 0, all16 0, all16 0⟩ =
      update config ⟨all16 0xc5, all16 0xc5, all16 0xc5, all16 0xc5, all16 0xc5, all16 0xc5⟩ := by decide +kernel

end Sys2Proof.Machine.Tests
end

section
/-!
The reset state, register by register (R34).
-/

namespace Sys2Proof.Machine

@[simp] theorem SixBlocks.zero_s0 : SixBlocks.zero.s0 = Block.zero := rfl
@[simp] theorem SixBlocks.zero_s1 : SixBlocks.zero.s1 = Block.zero := rfl
@[simp] theorem SixBlocks.zero_s2 : SixBlocks.zero.s2 = Block.zero := rfl
@[simp] theorem SixBlocks.zero_s3 : SixBlocks.zero.s3 = Block.zero := rfl
@[simp] theorem SixBlocks.zero_s4 : SixBlocks.zero.s4 = Block.zero := rfl
@[simp] theorem SixBlocks.zero_s5 : SixBlocks.zero.s5 = Block.zero := rfl

/-- Settles O6: the Block registers are `Block.zero`, whose every byte is zero; each other register is one of the
reset equations of `Engine`. -/
theorem resetLeavesTheTable : Obligations.ResetLeavesTheTable := by
  unfold Obligations.ResetLeavesTheTable
  rw [State.reset_eng]
  refine ⟨fun i => ?blocks, Engine.reset_keyv, ?taglen, Engine.reset_phase, Engine.reset_dir, Engine.reset_adbits,
    Engine.reset_msgbits, ?pos⟩
  case blocks =>
    simp only [Engine.reset_s, Engine.reset_k0, Engine.reset_k1, Engine.reset_buf, SixBlocks.zero_s0,
      SixBlocks.zero_s1, SixBlocks.zero_s2, SixBlocks.zero_s3, SixBlocks.zero_s4, SixBlocks.zero_s5,
      Block.byte_zero, and_self]
  case taglen => rw [Engine.reset_taglen]; rfl
  case pos => rw [Engine.reset_pos]; rfl

end Sys2Proof.Machine
end

section
/-!
The decoder: which words decode to which command, and that the opcode map says the same (R61 to R65).
-/

namespace Sys2Proof

/-- The lowest reserved bit of a command's format: Z from bit 8, L and V from bit 16, I from bit 17 (R61). -/
def Instr.reservedLow (i : Instr) : Nat :=
  match i with
  | .finalEmit | .abort | .status => 8
  | .init _ _ => 17
  | .setkey _ | .settaglen _ | .ad _ | .enc _ | .dec _ | .finalVerify _ => 16

/-- The command of the same row whose operands are the fields of `w` (R62). -/
def Instr.withOperands (i : Instr) (w : Word) : Instr :=
  match i with
  | .setkey _ => .setkey (Word.operand w)
  | .settaglen _ => .settaglen (Word.operand w)
  | .init _ _ => .init (Word.operand w) (Word.dir w)
  | .ad _ => .ad (Word.operand w)
  | .enc _ => .enc (Word.operand w)
  | .dec _ => .dec (Word.operand w)
  | .finalEmit => .finalEmit
  | .finalVerify _ => .finalVerify (Word.operand w)
  | .abort => .abort
  | .status => .status

@[simp] theorem Instr.opcode_withOperands (i : Instr) (w : Word) : (i.withOperands w).opcode = i.opcode := by
  cases i <;> rfl

@[simp] theorem Instr.reservedLow_withOperands (i : Instr) (w : Word) :
    (i.withOperands w).reservedLow = i.reservedLow := by
  cases i <;> rfl

@[simp] theorem Instr.row_withOperands (i : Instr) (w : Word) : (i.withOperands w).row = i.row := by
  cases i <;> rfl

@[simp] theorem Instr.withOperands_withOperands (i : Instr) (w : Word) :
    (i.withOperands w).withOperands w = i.withOperands w := by
  cases i <;> rfl

theorem reservedFrom_eq_ok_iff {lo : Nat} {w : Word} {i j : Instr} :
    reservedFrom lo w i = .ok j ↔ w >>> lo = 0 ∧ i = j := by
  unfold reservedFrom
  split
  next hres => simp only [hres, Except.ok.injEq, true_and]
  next hres => simp only [hres, reduceCtorEq, false_and]

/-- Under the opcode of a row the decoder checks the reserved bits of that row's format and reads its operands. -/
theorem decode_of_op {w : Word} {i : Instr} (hop : Word.op w = i.opcode.toNat) :
    decode w = reservedFrom i.reservedLow w (i.withOperands w) := by
  unfold decode
  rw [hop]
  cases i <;> rfl

/-- `OP` is the opcode of some row, or the word is rejected for it (R64). -/
theorem op_assigned_or_decode_error (w : Word) :
    (∃ i : Instr, Word.op w = i.opcode.toNat) ∨ decode w = .error .unassignedOp := by
  unfold decode
  split
  next hop => exact .inl ⟨.finalEmit, hop⟩
  next hop => exact .inl ⟨.abort, hop⟩
  next hop => exact .inl ⟨.status, hop⟩
  next hop => exact .inl ⟨.setkey 0, hop⟩
  next hop => exact .inl ⟨.ad 0, hop⟩
  next hop => exact .inl ⟨.enc 0, hop⟩
  next hop => exact .inl ⟨.dec 0, hop⟩
  next hop => exact .inl ⟨.finalVerify 0, hop⟩
  next hop => exact .inl ⟨.settaglen 0, hop⟩
  next hop => exact .inl ⟨.init 0 .encrypt, hop⟩
  next => exact .inr rfl

/-- What decodes to `i`: the words with its opcode, no reserved bit of its format, and its operands in the fields. -/
theorem decode_eq_ok_iff {w : Word} {i : Instr} :
    decode w = .ok i ↔ Word.op w = i.opcode.toNat ∧ w >>> i.reservedLow = 0 ∧ i.withOperands w = i := by
  constructor
  · intro hdec
    obtain ⟨k, hop⟩ | herr := op_assigned_or_decode_error w
    · rw [decode_of_op hop] at hdec
      obtain ⟨hres, rfl⟩ := reservedFrom_eq_ok_iff.1 hdec
      exact ⟨by simpa using hop, by simpa using hres, by simp⟩
    · rw [herr] at hdec
      cases hdec
  · rintro ⟨hop, hres, hflds⟩
    rw [decode_of_op hop]
    exact reservedFrom_eq_ok_iff.2 ⟨hres, hflds⟩

/-- The bits of a word from bit `lo` up: those a format of R61 reserves. -/
def reservedMask (lo : Nat) : Word := BitVec.allOnes 32 <<< lo

/-- The mask of a format whose reserved bits are those from `lo` up: the reserved bits and `OP` (R63). -/
def formatMask (lo : Nat) : Word := reservedMask lo ||| 0xFF

theorem op_eq_toNat_iff {w c : Word} : Word.op w = c.toNat ↔ w &&& 0xFF = c := by
  have hand : (w &&& 0xFF).toNat = Word.op w := by
    simpa [Word.op] using Nat.and_two_pow_sub_one_eq_mod w.toNat 8
  rw [← hand, BitVec.toNat_inj]

theorem getLsbD_and_reservedMask (w : Word) (lo j : Nat) :
    (w &&& reservedMask lo).getLsbD j = (decide (lo ≤ j) && w.getLsbD j) := by
  by_cases hj : j < 32
  · have hsub : j - lo < 32 := by omega
    simp only [reservedMask, BitVec.getLsbD_and, BitVec.getLsbD_shiftLeft, BitVec.getLsbD_allOnes, hj, hsub,
      decide_true, Bool.true_and, ← Nat.not_lt, decide_not, Bool.and_comm]
  · have hge : 32 ≤ j := by omega
    rw [BitVec.getLsbD_of_ge _ _ hge, BitVec.getLsbD_of_ge _ _ hge, Bool.and_false]

/-- Shifted out or masked out, the bits below `lo` do not count. -/
theorem ushiftRight_eq_zero_iff {w : Word} {lo : Nat} : w >>> lo = 0 ↔ w &&& reservedMask lo = 0 := by
  constructor
  · intro hshift
    refine BitVec.eq_of_getLsbD_eq fun j _ => ?_
    rw [getLsbD_and_reservedMask]
    by_cases hlo : lo ≤ j
    · have hbit : (w >>> lo).getLsbD (j - lo) = false := by simp [hshift]
      rw [BitVec.getLsbD_ushiftRight, Nat.add_sub_cancel' hlo] at hbit
      simp [hbit]
    · simp [hlo]
  · intro hand
    refine BitVec.eq_of_getLsbD_eq fun j _ => ?_
    have hbit := getLsbD_and_reservedMask w lo (lo + j)
    simpa [hand] using hbit

theorem formatMask_and_reservedMask (lo : Nat) : formatMask lo &&& reservedMask lo = reservedMask lo := by
  ext j
  simp +contextual [formatMask]

/-- A word under its format's mask shows its opcode alone exactly when its reserved bits are zero. -/
theorem and_formatMask_eq_iff {w c : Word} {lo : Nat} (hc : c >>> lo = 0) :
    w &&& formatMask lo = c ↔ Word.op w = c.toNat ∧ w >>> lo = 0 := by
  rw [ushiftRight_eq_zero_iff] at hc ⊢
  rw [op_eq_toNat_iff]
  have hsplit : w &&& formatMask lo = (w &&& reservedMask lo) ||| (w &&& 0xFF) := BitVec.and_or_distrib_left
  constructor
  · intro hmask
    have hres : w &&& reservedMask lo = 0 := calc
      w &&& reservedMask lo = (w &&& formatMask lo) &&& reservedMask lo := by
        rw [BitVec.and_assoc, formatMask_and_reservedMask]
      _ = 0 := by rw [hmask, hc]
    exact ⟨by simpa [hsplit, hres] using hmask, hres⟩
  · rintro ⟨hop, hres⟩
    rw [hsplit, hop, hres]
    exact BitVec.zero_or

theorem Instr.pattern_row (i : Instr) : i.row.pattern = i.opcode := by
  cases i <;> rfl

theorem Instr.mask_row (i : Instr) : i.row.mask = formatMask i.reservedLow := by
  cases i <;> simp only [Instr.row, Instr.reservedLow] <;> decide

theorem Instr.opcode_ushiftRight_reservedLow (i : Instr) : i.opcode >>> i.reservedLow = 0 := by
  cases i <;> simp only [Instr.opcode, Instr.reservedLow] <;> decide

/-- A word matches the row of `i` exactly when it has the opcode of `i` and no reserved bit of its format. -/
theorem Instr.and_mask_row_eq_pattern_iff (i : Instr) (w : Word) :
    w &&& i.row.mask = i.row.pattern ↔ Word.op w = i.opcode.toNat ∧ w >>> i.reservedLow = 0 := by
  rw [i.mask_row, i.pattern_row, and_formatMask_eq_iff i.opcode_ushiftRight_reservedLow]

theorem exists_row_of_mem_opcodeTable {row : OpcodeRow} (hmem : row ∈ opcodeTable) : ∃ i : Instr, i.row = row := by
  simp only [opcodeTable, List.mem_cons, List.not_mem_nil, or_false] at hmem
  obtain h | h | h | h | h | h | h | h | h | h := hmem <;> exact ⟨_, h.symm⟩

/-- Settles O3: a word that decodes matches the row of its command, and a word that matches the row of `k` decodes
to the command of that row with the word's own fields as operands. -/
theorem opcodeMapDecidesTheCommand : Obligations.OpcodeMapDecidesTheCommand := by
  unfold Obligations.OpcodeMapDecidesTheCommand
  refine ⟨rfl, fun row hmem w => ?_⟩
  obtain ⟨k, rfl⟩ := exists_row_of_mem_opcodeTable hmem
  constructor
  · rintro ⟨i, hdec, hrow⟩
    obtain ⟨hop, hres, -⟩ := decode_eq_ok_iff.1 hdec
    rw [← hrow]
    exact (i.and_mask_row_eq_pattern_iff w).2 ⟨hop, hres⟩
  · intro hmatch
    obtain ⟨hop, hres⟩ := (k.and_mask_row_eq_pattern_iff w).1 hmatch
    exact ⟨k.withOperands w, decode_eq_ok_iff.2 ⟨by simpa using hop, by simpa using hres, by simp⟩, by simp⟩

end Sys2Proof
end

section
/-!
Sequences of absorptions: `absorbAll` over a repeated list of Blocks, and `initialize` as one such sequence (R91, R92).
-/

namespace Sys2Proof.Machine

@[simp] theorem absorbAll_nil (c : Config) (S : SixBlocks) : absorbAll c S [] = S := rfl

@[simp] theorem absorbAll_cons (c : Config) (S : SixBlocks) (msg : Block) (blocks : List Block) :
    absorbAll c S (msg :: blocks) = absorbAll c (absorbBlock c S msg) blocks := rfl

theorem absorbAll_append (c : Config) (S : SixBlocks) (first rest : List Block) :
    absorbAll c S (first ++ rest) = absorbAll c (absorbAll c S first) rest := List.foldl_append

/-- Repeating a sequence of absorptions absorbs its list of Blocks that many times over. -/
theorem repeatTimes_absorbAll (c : Config) (blocks : List Block) (n : Nat) (S : SixBlocks) :
    repeatTimes n (absorbAll c · blocks) S = absorbAll c S (List.replicate n blocks).flatten := by
  induction n generalizing S with
  | zero => rfl
  | succ n ih =>
    rw [List.replicate_succ, List.flatten_cons, absorbAll_append]
    exact ih (absorbAll c S blocks)

theorem initRound_eq_absorbAll (c : Config) (k0 k1 kn0 kn1 : Block) :
    initRound c k0 k1 kn0 kn1 = (absorbAll c · [k0, k1, kn0, kn1]) := by
  funext S
  simp only [absorbAll_cons, absorbAll_nil, initRound]

/-- Settles O57: one repetition absorbs the four Blocks in order, so the `INIT_REPS` repetitions absorb the four copies
of that list. -/
theorem initializeAbsorbsSixteenBlocks : Obligations.InitializeAbsorbsSixteenBlocks := by
  unfold Obligations.InitializeAbsorbsSixteenBlocks
  intro c k0 k1 n0 n1 kn0 kn1 four
  have hfour : (List.replicate initReps four).flatten = four ++ four ++ four ++ four := rfl
  calc initState c k0 k1 n0 n1
      = repeatTimes initReps (initRound c k0 k1 kn0 kn1) (initStart c k0 k1 kn0 kn1) := rfl
    _ = absorbAll c (initStart c k0 k1 kn0 kn1) (List.replicate initReps four).flatten := by
      rw [initRound_eq_absorbAll, repeatTimes_absorbAll]
    _ = absorbAll c (initStart c k0 k1 kn0 kn1) (four ++ four ++ four ++ four) := by rw [hfour]

end Sys2Proof.Machine
end

section
/-!
`finalize` (R120): the words of the length block, the seven absorptions as one sequence, and the XOR of the six Blocks.
-/

namespace Sys2Proof.Machine

/-! The word view of a Block: `blockWord` takes back what `le64` laid out (R13). -/

theorem two_pow_eight_mul (j : Nat) : 2 ^ (8 * j) = 256 ^ j := pow_mul 2 8 j

/-- Byte `j` of `le64(n)` is digit `j` of `n` to base 256. -/
theorem toNat_le64Byte (n : BitVec 64) (j : Nat) : (le64Byte n j).toNat = n.toNat / 256 ^ j % 256 := by
  simp [le64Byte, Nat.shiftRight_eq_div_pow, two_pow_eight_mul]

/-- Byte `j` of `le64(n)` in its place within the word: digit `j` to base 256 times `256 ^ j`. -/
theorem le64Byte_shiftLeft (n : BitVec 64) (j : Nat) :
    (le64Byte n j).setWidth 64 <<< (8 * j) = BitVec.ofNat 64 (n.toNat / 256 ^ j % 256 * 256 ^ j) := by
  apply BitVec.eq_of_toNat_eq
  simp [toNat_le64Byte, Nat.shiftLeft_eq, two_pow_eight_mul]

/-- The sum of the first `k` bytes of `le64(n)`, each in its place, is `n` reduced modulo `256 ^ k`. -/
theorem foldl_le64Byte (n : BitVec 64) (k : Nat) :
    (List.range k).foldl (fun acc j => acc + (le64Byte n j).setWidth 64 <<< (8 * j)) 0 =
      BitVec.ofNat 64 (n.toNat % 256 ^ k) := by
  induction k with
  | zero => simp [Nat.mod_one]
  | succ k ih =>
    rw [List.range_succ, List.foldl_append, ih, List.foldl_cons, List.foldl_nil, le64Byte_shiftLeft,
      ← BitVec.ofNat_add, pow_succ, Nat.mod_mul, Nat.mul_comm (256 ^ k)]

/-- A Block with the bytes of `le64(n)` in word `w` has `n` as that word. -/
theorem blockWord_eq_of_bytes {b : Block} {w : Fin 2} {n : BitVec 64}
    (h : ∀ j < 8, b.toList.getD (8 * w.val + j) 0 = le64Byte n j) : blockWord b w = n := by
  have hsum : blockWord b w =
      (List.range 8).foldl (fun acc j => acc + (le64Byte n j).setWidth 64 <<< (8 * j)) 0 :=
    List.foldl_ext _ _ _ fun acc j hj => by rw [h j (List.mem_range.1 hj)]
  have hlt : n.toNat < 256 ^ 8 := n.isLt
  rw [hsum, foldl_le64Byte, Nat.mod_eq_of_lt hlt, BitVec.ofNat_toNat, BitVec.setWidth_eq]

theorem getD_le64 (n : BitVec 64) {j : Nat} (hj : j < 8) : (le64 n).getD j 0 = le64Byte n j := by
  simp [le64, hj]

@[simp] theorem blockWord_zero_blockOfWords (w0 w1 : BitVec 64) : blockWord (blockOfWords w0 w1) 0 = w0 := by
  refine blockWord_eq_of_bytes fun j hj => ?_
  rw [Block.getD_toList _ _ (by simp; omega), blockOfWords, byte_zeropad, List.getD_append _ _ _ _ (by simpa using hj)]
  simpa using getD_le64 w0 hj

@[simp] theorem blockWord_one_blockOfWords (w0 w1 : BitVec 64) : blockWord (blockOfWords w0 w1) 1 = w1 := by
  refine blockWord_eq_of_bytes fun j hj => ?_
  rw [Block.getD_toList _ _ (by simp; omega), blockOfWords, byte_zeropad, List.getD_append_right _ _ _ _ (by simp)]
  simpa using getD_le64 w1 hj

/-! The parts of `finalize`. -/

theorem finalMix_eq_absorbAll (c : Config) (S : SixBlocks) (adbits msgbits : BitVec 64) :
    finalMix c S adbits msgbits =
      absorbAll c S (List.replicate finalRounds (xorBlock (lengthBlock adbits msgbits) S.s3)) := by
  have h := repeatTimes_absorbAll c [xorBlock (lengthBlock adbits msgbits) S.s3] finalRounds S
  rwa [List.flatten_replicate_singleton] at h

theorem byte_xorAll (S : SixBlocks) (i : Fin 16) :
    (xorAll S).byte i =
      S.s0.byte i ^^^ S.s1.byte i ^^^ S.s2.byte i ^^^ S.s3.byte i ^^^ S.s4.byte i ^^^ S.s5.byte i := by
  simp [xorAll]

/-- Settles O58: the length block is the Block of the two words, `finalMix` is one sequence of seven absorptions, and
`derived` is `xorAll` of the State it leaves. -/
theorem finalizeAbsorbsTheLengthsSevenTimes : Obligations.FinalizeAbsorbsTheLengthsSevenTimes := by
  unfold Obligations.FinalizeAbsorbsTheLengthsSevenTimes
  intro c S adbits msgbits
  have hmix := finalMix_eq_absorbAll c S adbits msgbits
  refine ⟨lengthBlock adbits msgbits, blockWord_zero_blockOfWords adbits msgbits,
    blockWord_one_blockOfWords adbits msgbits, hmix, fun i => ?derived⟩
  case derived =>
    rw [← hmix]
    exact byte_xorAll (finalMix c S adbits msgbits) i

end Sys2Proof.Machine
end

section
/-!
The error of a command: which check of R149 fails first, and that the answer's code says so (R140, R143 to R147).
-/

namespace Sys2Proof.Machine

/-- The first check of R149 that `i` fails at the engine `e` has the error `err` (R143 to R147). -/
def RefusedWith (i : Instr) (e : Engine) (err : Err) : Prop :=
  match err with
  | .phaseErr => ¬ (AllowedInPhase i e.phase ∧ AllowedInDir i e.dir)
  | .noKey => AllowedInPhase i e.phase ∧ AllowedInDir i e.dir ∧ ¬ KeyPresent i e.keyv
  | .invalidKeyLength | .invalidTagLength | .invalidLength =>
    lengthErr i = err ∧ AllowedInPhase i e.phase ∧ AllowedInDir i e.dir ∧ KeyPresent i e.keyv ∧
      ¬ OperandAccepted i e.taglen
  | .ok | .illegalCmd | .authFail => False

theorem Err.code_inj {a b : Err} (h : a.code = b.code) : a = b := by
  revert h; cases a <;> cases b <;> decide

/-- Two answers to the same command in the same place have the same number of output bytes. -/
theorem Answered.length_unique {s t : State} {a b : Nat} {x y : List Byte} (h : Answered s t a x)
    (h' : Answered s t b y) : x.length = y.length := by
  obtain ⟨r, hr, -, hlen, -⟩ := h.response
  obtain ⟨r', hr', -, hlen', -⟩ := h'.response
  have hrr : r = r' := by simpa using hr.symm.trans hr'
  rw [← hlen, ← hlen', hrr]

theorem Runs.operandAccepted {i : Instr} {e : Engine} (h : Runs i e) : OperandAccepted i e.taglen := by
  obtain ⟨-, -, -, ho⟩ := h
  exact ho

theorem refusedWith_lengthErr {i : Instr} {e : Engine} (hp : AllowedInPhase i e.phase) (hd : AllowedInDir i e.dir)
    (hk : KeyPresent i e.keyv) (ho : ¬ OperandAccepted i e.taglen) : RefusedWith i e (lengthErr i) := by
  cases i <;> exact ⟨rfl, hp, hd, hk, ho⟩

theorem exists_refusedWith_of_not_runs {i : Instr} {e : Engine} (h : ¬ Runs i e) : ∃ err, RefusedWith i e err := by
  by_cases hpd : AllowedInPhase i e.phase ∧ AllowedInDir i e.dir
  · obtain ⟨hp, hd⟩ := hpd
    by_cases hk : KeyPresent i e.keyv
    · exact ⟨_, refusedWith_lengthErr hp hd hk fun ho => h ⟨hp, hd, hk, ho⟩⟩
    · exact ⟨.noKey, hp, hd, hk⟩
  · exact ⟨.phaseErr, hpd⟩

/-- A command that fails a check answers that check's error and leaves the registers (R140, R149). -/
theorem exec_of_refusedWith {i : Instr} {s : State} {err : Err} (h : RefusedWith i s.eng err) :
    exec i s = .next (s.finish s.eng err []) := by
  cases err with
  | phaseErr => exact exec_phaseErr h
  | noKey =>
    obtain ⟨hp, hd, hk⟩ := h
    exact exec_noKey hp hd hk
  | invalidKeyLength | invalidTagLength | invalidLength =>
    obtain ⟨herr, hp, hd, hk, ho⟩ := h
    rw [← herr]
    exact exec_lengthErr hp hd hk ho
  | ok | illegalCmd | authFail => exact h.elim

/-- A command that passes every check answers `OK`, or, `FINAL_VERIFY` alone, `AUTH_FAIL` (R148, R149). -/
theorem exec_of_runs {i : Instr} {s : State} (h : Runs i s.eng) :
    ∃ (e : Engine) (err : Err) (bytes : List Byte), bytes.length ≤ 16 ∧ exec i s = .next (s.finish e err bytes) ∧
      (err = .ok ∨ err = .authFail ∧ ∃ len, i = .finalVerify len) := by
  have hbeat {d : DataIn} {len : Nat} (ho : len ≤ 16) : (d.first len).length ≤ 16 := (length_first_le d len).trans ho
  cases i with
  | setkey len => exact ⟨_, _, _, by simp, exec_setkey h, .inl rfl⟩
  | settaglen val => exact ⟨_, _, _, by simp, exec_settaglen h, .inl rfl⟩
  | init len dir => exact ⟨_, _, _, by simp, exec_init h, .inl rfl⟩
  | ad len => exact ⟨_, _, _, by simp, exec_ad h, .inl rfl⟩
  | enc len => exact ⟨_, _, _, by simpa using hbeat h.operandAccepted, exec_enc h, .inl rfl⟩
  | dec len => exact ⟨_, _, _, by simpa using hbeat h.operandAccepted, exec_dec h, .inl rfl⟩
  | finalEmit => exact ⟨_, _, _, by simp, exec_finalEmit h, .inl rfl⟩
  | finalVerify len =>
    rw [exec_finalVerify h]
    split
    · exact ⟨_, _, _, by simp, rfl, .inl rfl⟩
    · exact ⟨_, _, _, by simp, rfl, .inr ⟨rfl, len, rfl⟩⟩
  | abort => exact ⟨_, _, _, by simp, exec_abort s, .inl rfl⟩
  | status => exact ⟨_, _, _, by simp, exec_status s, .inl rfl⟩

/-- The answer to every command, in every state: it fails a check and writes nothing, or it completes with `OK` or
`AUTH_FAIL`. -/
theorem exec_cases (i : Instr) (s : State) :
    (∃ err, RefusedWith i s.eng err ∧ exec i s = .next (s.finish s.eng err [])) ∨
    (∃ (e : Engine) (err : Err) (bytes : List Byte), (err = .ok ∨ err = .authFail) ∧ bytes.length ≤ 16 ∧
      exec i s = .next (s.finish e err bytes)) := by
  by_cases h : Runs i s.eng
  · obtain ⟨e, err, bytes, hlen, hexec, hok | ⟨hfail, -⟩⟩ := exec_of_runs h
    · exact .inr ⟨e, err, bytes, .inl hok, hlen, hexec⟩
    · exact .inr ⟨e, err, bytes, .inr hfail, hlen, hexec⟩
  · obtain ⟨err, herr⟩ := exists_refusedWith_of_not_runs h
    exact .inl ⟨err, herr, exec_of_refusedWith herr⟩

/-- An error other than `AUTH_FAIL` is answered, with every register kept, exactly where its check is the first to
fail. -/
theorem exists_refused_iff {i : Instr} {s : State} {err : Err} (hok : err ≠ .ok) (hfail : err ≠ .authFail) :
    (∃ t, exec i s = .next t ∧ Refused s t err.code) ↔ RefusedWith i s.eng err := by
  constructor
  · rintro ⟨t, hexec, href⟩
    obtain ⟨err', hwith, hexec'⟩ | ⟨e, err', bytes, hdone, hlen, hexec'⟩ := exec_cases i s
    all_goals obtain rfl : _ = t := Host.Outcome.next.inj (hexec'.symm.trans hexec)
    · have hcode := href.answered.err_unique (finish_answered s s.eng err' [] (Nat.zero_le _))
      rwa [Err.code_inj hcode]
    · obtain rfl := Err.code_inj (href.answered.err_unique (finish_answered s e err' bytes hlen))
      exact absurd hdone (not_or.2 ⟨hok, hfail⟩)
  · exact fun hwith => ⟨_, exec_of_refusedWith hwith, finish_refused s err⟩

/-! Which commands raise which length error (R145, R146, R147). -/

theorem refusedWith_invalidKeyLength_iff {i : Instr} {e : Engine} :
    RefusedWith i e .invalidKeyLength ↔ ∃ len, i = .setkey len ∧ BetweenInvocations e.phase ∧ len ≠ 32 := by
  constructor
  · rintro ⟨herr, hp, -, -, ho⟩
    cases i with
    | setkey len => exact ⟨len, rfl, hp, ho⟩
    | _ => cases herr
  · rintro ⟨len, rfl, hp, hlen⟩
    exact ⟨rfl, hp, trivial, trivial, hlen⟩

theorem refusedWith_invalidTagLength_iff {i : Instr} {e : Engine} :
    RefusedWith i e .invalidTagLength ↔
      ∃ val, i = .settaglen val ∧ BetweenInvocations e.phase ∧ (val < 8 ∨ 16 < val) := by
  have hrange (val : Nat) : ¬ OperandAccepted (.settaglen val) e.taglen ↔ val < 8 ∨ 16 < val := by
    simp only [OperandAccepted]
    omega
  constructor
  · rintro ⟨herr, hp, -, -, ho⟩
    cases i with
    | settaglen val => exact ⟨val, rfl, hp, (hrange val).1 ho⟩
    | _ => cases herr
  · rintro ⟨val, rfl, hp, hval⟩
    exact ⟨rfl, hp, trivial, trivial, (hrange val).2 hval⟩

theorem refusedWith_invalidLength_iff {i : Instr} {e : Engine} :
    RefusedWith i e .invalidLength ↔ AllowedInPhase i e.phase ∧ AllowedInDir i e.dir ∧
      ((∃ len dir, i = .init len dir ∧ e.keyv = true ∧ len ≠ 32) ∨
       (∃ len, (i = .ad len ∨ i = .enc len ∨ i = .dec len) ∧ 16 < len) ∨
       ∃ len, i = .finalVerify len ∧ len ≠ e.taglen.toNat) := by
  constructor
  · rintro ⟨herr, hp, hd, hk, ho⟩
    refine ⟨hp, hd, ?_⟩
    cases i with
    | init len dir => exact .inl ⟨len, dir, rfl, hk, ho⟩
    | ad len => exact .inr (.inl ⟨len, .inl rfl, Nat.lt_of_not_le ho⟩)
    | enc len => exact .inr (.inl ⟨len, .inr (.inl rfl), Nat.lt_of_not_le ho⟩)
    | dec len => exact .inr (.inl ⟨len, .inr (.inr rfl), Nat.lt_of_not_le ho⟩)
    | finalVerify len => exact .inr (.inr ⟨len, rfl, ho⟩)
    | setkey len | settaglen val => cases herr
    | finalEmit | abort | status => exact absurd trivial ho
  · rintro ⟨hp, hd, ⟨len, dir, rfl, hk, hlen⟩ | ⟨len, rfl | rfl | rfl, hlen⟩ | ⟨len, rfl, hlen⟩⟩
    · exact ⟨rfl, hp, hd, hk, hlen⟩
    · exact ⟨rfl, hp, hd, trivial, Nat.not_le_of_lt hlen⟩
    · exact ⟨rfl, hp, hd, trivial, Nat.not_le_of_lt hlen⟩
    · exact ⟨rfl, hp, hd, trivial, Nat.not_le_of_lt hlen⟩
    · exact ⟨rfl, hp, hd, trivial, hlen⟩

/-- Settles O22: the phase and direction checks come first, so they alone decide `PHASE_ERR`. -/
theorem phaseErrExactlyWhereNotAllowed : Obligations.PhaseErrExactlyWhereNotAllowed := by
  unfold Obligations.PhaseErrExactlyWhereNotAllowed
  intro i s _
  exact exists_refused_iff (err := .phaseErr) (by decide) (by decide)

/-- Settles O24: `INVALID_KEY_LENGTH` is the length error of `SETKEY` alone. -/
theorem invalidKeyLengthExactly : Obligations.InvalidKeyLengthExactly := by
  unfold Obligations.InvalidKeyLengthExactly
  intro i s
  exact (exists_refused_iff (err := .invalidKeyLength) (by decide) (by decide)).trans refusedWith_invalidKeyLength_iff

/-- Settles O25: `INVALID_TAG_LENGTH` is the length error of `SETTAGLEN` alone. -/
theorem invalidTagLengthExactly : Obligations.InvalidTagLengthExactly := by
  unfold Obligations.InvalidTagLengthExactly
  intro i s
  exact (exists_refused_iff (err := .invalidTagLength) (by decide) (by decide)).trans refusedWith_invalidTagLength_iff

/-- Settles O26: `INVALID_LENGTH` is the length error of the commands that take a nonce, a beat or a tag. -/
theorem invalidLengthExactly : Obligations.InvalidLengthExactly := by
  unfold Obligations.InvalidLengthExactly
  intro i s
  exact (exists_refused_iff (err := .invalidLength) (by decide) (by decide)).trans refusedWith_invalidLength_iff

/-- Settles O28: a packet is answered as an illegal word, which writes nothing, or by its command, which either fails
a check and writes nothing or completes; a completed command has the code 0 or 7. -/
theorem refusedPacketsWriteNothing : Obligations.RefusedPacketsWriteNothing := by
  unfold Obligations.RefusedPacketsWriteNothing
  intro s t p rest code bytes hpend hstep hans hne0 hne7
  have refused_case {err : Err} (hstep' : step s =
      .next (({ s with din := p.din, pending := rest } : State).finish s.eng err [])) :
      t.eng = s.eng ∧ bytes = [] := by
    obtain rfl := Host.Outcome.next.inj (hstep'.symm.trans hstep)
    have hlen := hans.length_unique (finish_answered _ s.eng err [] (Nat.zero_le _))
    exact ⟨rfl, List.eq_nil_of_length_eq_zero hlen⟩
  match hdec : decode p.cmd with
  | .error why => exact refused_case (step_illegal hpend hdec)
  | .ok i =>
    have hrun := step_command hpend hdec
    obtain ⟨err, -, hexec⟩ | ⟨e, err, out, hdone, hlen, hexec⟩ := exec_cases i _
    · exact refused_case (hrun.trans hexec)
    · obtain rfl := Host.Outcome.next.inj ((hrun.trans hexec).symm.trans hstep)
      have hcode := hans.err_unique (finish_answered _ e err out hlen)
      obtain rfl | rfl := hdone
      · exact absurd hcode hne0
      · exact absurd hcode hne7

end Sys2Proof.Machine
end

section
/-!
Legal and illegal words, and the answer to each (R64, R142).
-/

namespace Sys2Proof.Machine

theorem op_eq_mod (w : Word) : Word.op w = w.toNat % 256 := by
  simp [Word.op]

theorem ushiftRight_eq_zero_iff_div {w : Word} {lo : Nat} : w >>> lo = 0 ↔ w.toNat / 2 ^ lo = 0 := by
  rw [← BitVec.toNat_inj, BitVec.toNat_ushiftRight, Nat.shiftRight_eq_div_pow]
  rfl

/-- A word decodes exactly when it has the opcode of some command and no reserved bit of that command's format. -/
theorem exists_decode_eq_ok_iff {w : Word} :
    (∃ i, decode w = .ok i) ↔ ∃ i : Instr, w.toNat % 256 = i.opcode.toNat ∧ w.toNat / 2 ^ i.reservedLow = 0 := by
  simp only [← op_eq_mod, ← ushiftRight_eq_zero_iff_div]
  constructor
  · rintro ⟨i, hdec⟩
    obtain ⟨hop, hres, -⟩ := decode_eq_ok_iff.1 hdec
    exact ⟨i, hop, hres⟩
  · rintro ⟨i, hop, hres⟩
    exact ⟨i.withOperands w, decode_eq_ok_iff.2 ⟨by simpa using hop, by simpa using hres, by simp⟩⟩

/-- The legal words of R64, format by format, are those the decoder accepts. -/
theorem legalWord_iff_decode {w : Word} : LegalWord w ↔ ∃ i, decode w = .ok i := by
  rw [exists_decode_eq_ok_iff]
  constructor
  · simp only [LegalWord, List.mem_cons, List.not_mem_nil, or_false]
    rintro (⟨hop | hop | hop, hres⟩ | ⟨hop | hop | hop | hop | hop | hop, hres⟩ | ⟨hop, hres⟩)
    · exact ⟨.finalEmit, hop, hres⟩
    · exact ⟨.abort, hop, hres⟩
    · exact ⟨.status, hop, hres⟩
    · exact ⟨.setkey 0, hop, hres⟩
    · exact ⟨.settaglen 0, hop, hres⟩
    · exact ⟨.ad 0, hop, hres⟩
    · exact ⟨.enc 0, hop, hres⟩
    · exact ⟨.dec 0, hop, hres⟩
    · exact ⟨.finalVerify 0, hop, hres⟩
    · exact ⟨.init 0 .encrypt, hop, hres⟩
  · rintro ⟨i, hop, hres⟩
    cases i with
    | finalEmit | abort | status => exact .inl ⟨by simp [hop, Instr.opcode], hres⟩
    | setkey _ | settaglen _ | ad _ | enc _ | dec _ | finalVerify _ =>
      exact .inr (.inl ⟨by simp [hop, Instr.opcode], hres⟩)
    | init _ _ => exact .inr (.inr ⟨hop, hres⟩)

/-- No command raises `ILLEGAL_CMD`: only the decoder does. -/
theorem exec_not_illegalCmd (i : Instr) (s : State) :
    ∃ (e : Engine) (err : Err) (bytes : List Byte), err ≠ .illegalCmd ∧ bytes.length ≤ 16 ∧
      exec i s = .next (s.finish e err bytes) := by
  obtain ⟨err, hwith, hexec⟩ | ⟨e, err, bytes, hdone, hlen, hexec⟩ := exec_cases i s
  · exact ⟨s.eng, err, [], by rintro rfl; exact hwith, Nat.zero_le _, hexec⟩
  · exact ⟨e, err, bytes, by rintro rfl; simp at hdone, hlen, hexec⟩

/-- Settles O9: a word is legal exactly when it decodes; one that does not is answered `ILLEGAL_CMD` with the
registers kept, and no command answers that. -/
theorem illegalWordsAnsweredIllegalCmd : Obligations.IllegalWordsAnsweredIllegalCmd := by
  unfold Obligations.IllegalWordsAnsweredIllegalCmd
  intro s p rest hpend
  refine ⟨fun hillegal => ?_, fun hlegal => ?_⟩
  · match hdec : decode p.cmd with
    | .ok i => exact absurd (legalWord_iff_decode.2 ⟨i, hdec⟩) hillegal
    | .error why => exact ⟨_, step_illegal hpend hdec, finish_refused _ .illegalCmd⟩
  · obtain ⟨i, hdec⟩ := legalWord_iff_decode.1 hlegal
    obtain ⟨e, err, bytes, herr, hlen, hexec⟩ := exec_not_illegalCmd i _
    exact ⟨_, err.code, bytes, (step_command hpend hdec).trans hexec, finish_answered _ e err bytes hlen,
      fun hcode => herr (Err.code_inj hcode)⟩

end Sys2Proof.Machine
end

section
/-!
The lanes of the data-in port beyond a command's operand influence neither its checks nor its effect (R46, R167).
-/

namespace Sys2Proof.Machine

/-- The first 32 lanes are the whole data-in port. -/
theorem DataIn.eq_of_first_eq {d d' : DataIn} (h : d.first 32 = d'.first 32) : d = d' := by
  have whole (x : DataIn) : x.first 32 = x.lo.toList ++ x.hi.toList := List.take_of_length_le (by simp [DataIn.bytes])
  rw [whole, whole] at h
  obtain ⟨hlo, hhi⟩ := List.append_inj h (by simp)
  cases d; cases d'
  exact congrArg₂ DataIn.mk (Block.toList_inj hlo) (Block.toList_inj hhi)

/-- From `s` and from `s'` the command `i` ends in the same way: the same registers and the same answer. -/
def EndsAlike (i : Instr) (s s' : State) : Prop :=
  ∃ (e : Engine) (err : Err) (bytes : List Byte),
    exec i s = .next (s.finish e err bytes) ∧ exec i s' = .next (s'.finish e err bytes)

theorem EndsAlike.refl (i : Instr) (s : State) : EndsAlike i s s := by
  obtain ⟨e, err, bytes, -, hexec⟩ := exec_finishes i s
  exact ⟨e, err, bytes, hexec, hexec⟩

/-- The checks of R149 read the registers alone, so a refusal does not depend on the port. -/
theorem endsAlike_of_not_runs {i : Instr} {s s' : State} (heng : s'.eng = s.eng) (h : ¬ Runs i s.eng) :
    EndsAlike i s s' := by
  obtain ⟨err, hwith⟩ := exists_refusedWith_of_not_runs h
  have hexec' := exec_of_refusedWith (heng ▸ hwith : RefusedWith i s'.eng err)
  rw [heng] at hexec'
  exact ⟨s.eng, err, [], exec_of_refusedWith hwith, hexec'⟩

/-- A command that runs reads no more of the port than its operand: nothing, a beat or a tag of that many lanes, or
all 32 lanes for a key or a nonce. -/
theorem endsAlike_of_runs {i : Instr} {s : State} {d : DataIn} (h : Runs i s.eng)
    (hd : d.first (operandBytes i s.eng.taglen) = s.din.first (operandBytes i s.eng.taglen)) :
    EndsAlike i s { s with din := d } := by
  have h' : Runs i ({ s with din := d } : State).eng := h
  have hacc := h.operandAccepted
  cases i with
  | setkey len | init len dir =>
    obtain rfl : len = 32 := hacc
    obtain rfl : d = s.din := DataIn.eq_of_first_eq hd
    exact .refl _ s
  | ad len =>
    have hbeat : d.first len = s.din.first len := hd
    exact ⟨_, _, _, exec_ad h, hbeat ▸ exec_ad h'⟩
  | enc len =>
    have hbeat : d.first len = s.din.first len := hd
    exact ⟨_, _, _, exec_enc h, hbeat ▸ exec_enc h'⟩
  | dec len =>
    have hbeat : d.first len = s.din.first len := hd
    exact ⟨_, _, _, exec_dec h, hbeat ▸ exec_dec h'⟩
  | finalVerify len =>
    obtain rfl : len = s.eng.taglen.toNat := hacc
    have htag : d.first s.eng.taglen.toNat = s.din.first s.eng.taglen.toNat := hd
    rw [EndsAlike, exec_finalVerify h, exec_finalVerify h', htag]
    split
    · exact ⟨_, _, _, rfl, rfl⟩
    · exact ⟨_, _, _, rfl, rfl⟩
  | settaglen val => exact ⟨_, _, _, exec_settaglen h, exec_settaglen h'⟩
  | finalEmit => exact ⟨_, _, _, exec_finalEmit h, exec_finalEmit h'⟩
  | abort => exact ⟨_, _, _, exec_abort s, exec_abort _⟩
  | status => exact ⟨_, _, _, exec_status s, exec_status _⟩

/-- Settles O35: refused or run, the command ends alike whatever the lanes beyond its operand hold. -/
theorem unusedLanesAreIgnored : Obligations.UnusedLanesAreIgnored := by
  unfold Obligations.UnusedLanesAreIgnored
  intro i s d hd
  have halike : EndsAlike i s { s with din := d } := by
    by_cases h : Runs i s.eng
    · exact endsAlike_of_runs h hd
    · exact endsAlike_of_not_runs rfl h
  obtain ⟨e, err, bytes, hexec, hexec'⟩ := halike
  exact ⟨_, _, hexec, hexec', rfl, rfl⟩

end Sys2Proof.Machine
end

section
/-!
Encoding and decoding are inverse to each other (R61, R65), and a step runs what it decodes (R48, R49).
-/

namespace Sys2Proof

theorem Instr.encode_and_mask_row (i : Instr) : encode i &&& i.row.mask = i.row.pattern := by
  cases i with
  | setkey len => exact (Laws.RowMatch.setkey len).1
  | settaglen val => exact (Laws.RowMatch.settaglen val).1
  | init len dir => exact (Laws.RowMatch.init len dir).1
  | ad len => exact (Laws.RowMatch.ad len).1
  | enc len => exact (Laws.RowMatch.enc len).1
  | dec len => exact (Laws.RowMatch.dec len).1
  | finalEmit => exact Laws.RowMatch.finalEmit.1
  | finalVerify len => exact (Laws.RowMatch.finalVerify len).1
  | abort => exact Laws.RowMatch.abort.1
  | status => exact Laws.RowMatch.status.1

/-- The opcode and the direction bit lie outside `CMD[15:8]`, so the field reads back the operand (R61). -/
theorem operand_of_fields {op bit : Word} {n : Nat} (hn : n < 256) (hop : op >>> 8 = 0) :
    Word.operand (op ||| operandField n ||| (bit <<< 16)) = n := by
  have hfield : (op ||| operandField n ||| (bit <<< 16)).extractLsb' 8 8 = BitVec.ofNat 8 n := by
    refine BitVec.eq_of_getLsbD_eq fun j hj => ?_
    have hopj : op[8 + j] = false := by
      rw [← BitVec.getLsbD_eq_getElem]
      simpa [hop] using (BitVec.getLsbD_ushiftRight op 8 j).symm
    have hlow : 8 + j < 16 := by omega
    simp [operandField, hj, hopj, hlow, show 8 + j < 32 by omega]
  rw [Word.operand, hfield, BitVec.toNat_ofNat, Nat.mod_eq_of_lt hn]

theorem operand_of_format_LV {op : Word} {n : Nat} (hn : n < 256) (hop : op >>> 8 = 0) :
    Word.operand (op ||| operandField n) = n := by
  simpa using operand_of_fields (bit := 0) hn hop

/-- Bit 16 of a format I word is the direction (R61). -/
theorem dir_of_format_I (n : Nat) (d : Dir) : Word.dir (0x03#32 ||| operandField n ||| (d.bit <<< 16)) = d := by
  cases d <;> simp [Word.dir, operandField, Dir.bit]

theorem Instr.opcode_ushiftRight_eight (i : Instr) : i.opcode >>> 8 = 0 := by
  cases i <;> simp only [Instr.opcode] <;> decide

theorem Instr.withOperands_encode {i : Instr} (h : i.WellFormed) : i.withOperands (encode i) = i := by
  have operand {k : Instr} {n : Nat} (hn : fitsField n = true) : Word.operand (k.opcode ||| operandField n) = n :=
    operand_of_format_LV (of_decide_eq_true hn) k.opcode_ushiftRight_eight
  cases i with
  | init len dir =>
    exact congrArg₂ Instr.init (operand_of_fields (of_decide_eq_true h) (Instr.init len dir).opcode_ushiftRight_eight)
      (dir_of_format_I len dir)
  | setkey len => exact congrArg Instr.setkey (operand h)
  | settaglen val => exact congrArg Instr.settaglen (operand h)
  | ad len => exact congrArg Instr.ad (operand h)
  | enc len => exact congrArg Instr.enc (operand h)
  | dec len => exact congrArg Instr.dec (operand h)
  | finalVerify len => exact congrArg Instr.finalVerify (operand h)
  | finalEmit | abort | status => rfl

theorem decode_encode {i : Instr} (h : i.WellFormed) : decode (encode i) = .ok i := by
  obtain ⟨hop, hres⟩ := (i.and_mask_row_eq_pattern_iff (encode i)).1 i.encode_and_mask_row
  exact decode_eq_ok_iff.2 ⟨hop, hres, Instr.withOperands_encode h⟩

/-- Settles O1: the word of a command matches the command's row, and its fields read back the operands. -/
theorem decodeOfEncodeIsIdentity : Obligations.DecodeOfEncodeIsIdentity := by
  unfold Obligations.DecodeOfEncodeIsIdentity
  exact fun _ => decode_encode

theorem operand_lt (w : Word) : Word.operand w < 256 := (w.extractLsb' 8 8).isLt

theorem wellFormed_withOperands (i : Instr) (w : Word) : (i.withOperands w).WellFormed := by
  cases i with
  | finalEmit | abort | status => rfl
  | setkey _ | settaglen _ | init _ _ | ad _ | enc _ | dec _ | finalVerify _ => exact decide_eq_true (operand_lt w)

theorem wellFormed_of_decode {w : Word} {i : Instr} (h : decode w = .ok i) : i.WellFormed := by
  obtain ⟨-, -, hflds⟩ := decode_eq_ok_iff.1 h
  exact hflds ▸ wellFormed_withOperands i w

/-- A word is its bits from 16 up and the two bytes below, `OP` and the operand field (R61). -/
theorem toNat_eq_fields (w : Word) : w.toNat = w.toNat / 2 ^ 16 * 2 ^ 16 + Word.operand w * 2 ^ 8 + Word.op w := by
  have hop : Word.op w = w.toNat % 256 := Machine.op_eq_mod w
  have hoperand : Word.operand w = w.toNat / 2 ^ 8 % 2 ^ 8 := Machine.extract_toNat w 8 8
  omega

theorem operand_eq_zero {w : Word} (h : w.toNat / 2 ^ 8 = 0) : Word.operand w = 0 := by
  rw [Word.operand, Machine.extract_toNat, h, Nat.zero_mod]

/-- With the bits from 17 up zero, `CMD[16]` is all that stands above the two low bytes. -/
theorem high_eq_of_dir {w : Word} (h : w.toNat / 2 ^ 17 = 0) :
    w.toNat / 2 ^ 16 = if Word.dir w = .decrypt then 1 else 0 := by
  have hbit : w.getLsbD 16 = decide (w.toNat / 2 ^ 16 % 2 = 1) := Machine.getLsbD_toNat w 16
  by_cases h1 : w.toNat / 2 ^ 16 % 2 = 1
  · simp only [Word.dir, hbit, h1, decide_true, if_true]; omega
  · simp only [Word.dir, hbit, h1, decide_false, Bool.false_eq_true, if_false, reduceCtorEq]; omega

/-- Two words that decode to the same command agree in every field, so they are the same word (R65). -/
theorem eq_of_decode_eq {w w' : Word} {i : Instr} (h : decode w = .ok i) (h' : decode w' = .ok i) : w = w' := by
  obtain ⟨hop, hres, hflds⟩ := decode_eq_ok_iff.1 h
  obtain ⟨hop', hres', hflds'⟩ := decode_eq_ok_iff.1 h'
  rw [Machine.ushiftRight_eq_zero_iff_div] at hres hres'
  have same (hhigh : w.toNat / 2 ^ 16 = w'.toNat / 2 ^ 16) (hoperand : Word.operand w = Word.operand w') :
      w = w' := by
    apply BitVec.eq_of_toNat_eq
    rw [toNat_eq_fields w, toNat_eq_fields w', hhigh, hoperand, hop, hop']
  cases i with
  | finalEmit | abort | status =>
    have low (x : Word) (hx : x.toNat / 2 ^ 8 = 0) : x.toNat / 2 ^ 16 = 0 := by omega
    exact same ((low w hres).trans (low w' hres').symm) ((operand_eq_zero hres).trans (operand_eq_zero hres').symm)
  | init len dir =>
    obtain ⟨hlen, hdir⟩ := Instr.init.inj hflds
    obtain ⟨hlen', hdir'⟩ := Instr.init.inj hflds'
    refine same ?_ (hlen.trans hlen'.symm)
    rw [high_eq_of_dir hres, high_eq_of_dir hres', hdir, hdir']
  | setkey _ => exact same (hres.trans hres'.symm) (Instr.setkey.inj (hflds.trans hflds'.symm))
  | settaglen _ => exact same (hres.trans hres'.symm) (Instr.settaglen.inj (hflds.trans hflds'.symm))
  | ad _ => exact same (hres.trans hres'.symm) (Instr.ad.inj (hflds.trans hflds'.symm))
  | enc _ => exact same (hres.trans hres'.symm) (Instr.enc.inj (hflds.trans hflds'.symm))
  | dec _ => exact same (hres.trans hres'.symm) (Instr.dec.inj (hflds.trans hflds'.symm))
  | finalVerify _ => exact same (hres.trans hres'.symm) (Instr.finalVerify.inj (hflds.trans hflds'.symm))

/-- Settles O2: the encoding decodes to the same command, and only one word does. -/
theorem encodeOfDecodeIsIdentity : Obligations.EncodeOfDecodeIsIdentity := by
  unfold Obligations.EncodeOfDecodeIsIdentity
  intro w i hdec
  have hwf := wellFormed_of_decode hdec
  exact ⟨hwf, eq_of_decode_eq (decode_encode hwf) hdec, fun w' hdec' => eq_of_decode_eq hdec' hdec⟩

namespace Machine

/-- Settles O5: a decoded command is well formed, and the step takes its packet and runs it. -/
theorem stepRunsDecodedCommand : Obligations.StepRunsDecodedCommand := by
  unfold Obligations.StepRunsDecodedCommand
  exact fun s p rest i hpend hdec => ⟨wellFormed_of_decode hdec, step_command hpend hdec⟩

/-- The answer to a packet whose word decodes to `STATUS`, on any machine (R133). -/
theorem step_status {s : State} {p : CommandPacket} {rest : List HostEvent} (hpend : s.pending = .command p :: rest)
    (hdec : decode p.cmd = .ok .status) :
    step s = .next ((({ s with pending := rest } : State).present p).finish s.eng .ok []) :=
  (step_command hpend hdec).trans (exec_status _)

/-- Settles O4: each example word has the opcode and the reserved bits printed; after reset the response word of
`STATUS` holds `TAGLEN = 16` and nothing else. -/
theorem encodingExamplesDecode : Obligations.EncodingExamplesDecode := by
  unfold Obligations.EncodingExamplesDecode
  refine ⟨by decide, by decide, by decide, by decide, by decide, by decide, by decide, by decide, by decide, by decide,
    by decide, by decide, by decide, by decide, by decide, by decide, by decide, _,
    step_status (withFetchWord_pending _ _ _) (by decide), ?_⟩
  rfl

end Machine

end Sys2Proof
end

section
/-!
Each setup and control command, where it completes and where it is refused; and the order of the checks (R130 to R133,
R149).
-/

namespace Sys2Proof.Machine

theorem exec_next (i : Instr) (s : State) : ∃ t, exec i s = .next t := by
  obtain ⟨e, err, bytes, -, hexec⟩ := exec_finishes i s
  exact ⟨_, hexec⟩

/-- A command has one outcome, the one its closed form gives. -/
theorem finish_of_exec {i : Instr} {s t : State} {e : Engine} {err : Err} {bytes : List Byte}
    (hexec : exec i s = .next t) (hform : exec i s = .next (s.finish e err bytes)) : t = s.finish e err bytes :=
  Host.Outcome.next.inj (hexec.symm.trans hform)

/-- A command that fails a check is refused with that check's error (R140). -/
theorem refused_of_exec {i : Instr} {s t : State} {err : Err} (hexec : exec i s = .next t)
    (h : RefusedWith i s.eng err) : Refused s t err.code := by
  obtain rfl := finish_of_exec hexec (exec_of_refusedWith h)
  exact finish_refused s err

/-- A command that does not run writes no register (R140). -/
theorem eng_of_not_runs {i : Instr} {s t : State} (hexec : exec i s = .next t) (h : ¬ Runs i s.eng) :
    t.eng = s.eng := by
  obtain ⟨err, hwith⟩ := exists_refusedWith_of_not_runs h
  exact (refused_of_exec hexec hwith).unchanged

/-- What a command's closed form says of its answer. -/
theorem answered_of_exec {i : Instr} {s t : State} {e : Engine} {err : Err} {bytes : List Byte}
    (hexec : exec i s = .next t) (hform : exec i s = .next (s.finish e err bytes)) (hlen : bytes.length ≤ 16) :
    Answered s t err.code bytes ∧ t.eng = e := by
  obtain rfl := finish_of_exec hexec hform
  exact ⟨finish_answered s e err bytes hlen, rfl⟩

/-- A phase error outside the allowed phases. -/
theorem refusedWith_phaseErr {i : Instr} {e : Engine} (h : ¬ AllowedInPhase i e.phase) : RefusedWith i e .phaseErr :=
  fun hallowed => h hallowed.1

/-- Settles O12: the three clauses are the closed form of `SETKEY`, the phase check and the length check. -/
theorem setkeyLoadsTheKey : Obligations.SetkeyLoadsTheKey := by
  unfold Obligations.SetkeyLoadsTheKey
  intro len s
  obtain ⟨t, hexec⟩ := exec_next (.setkey len) s
  refine ⟨t, hexec, fun hp hlen => ?_, fun hp => ?_, fun hp hlen => ?_⟩
  · exact answered_of_exec hexec (exec_setkey ⟨hp, trivial, trivial, hlen⟩) (Nat.zero_le _)
  · exact refused_of_exec hexec (refusedWith_phaseErr hp)
  · exact refused_of_exec hexec (refusedWith_invalidKeyLength_iff.2 ⟨len, rfl, hp, hlen⟩)

/-- Five bits hold every accepted tag length (R23). -/
theorem toNat_taglen_of_le {val : Nat} (h : val ≤ 16) : (BitVec.ofNat 5 val).toNat = val := by
  rw [BitVec.toNat_ofNat]
  omega

/-- Settles O13: the three clauses are the closed form of `SETTAGLEN`, the phase check and the value check. -/
theorem settaglenSetsTheLength : Obligations.SettaglenSetsTheLength := by
  unfold Obligations.SettaglenSetsTheLength
  intro val s
  obtain ⟨t, hexec⟩ := exec_next (.settaglen val) s
  refine ⟨t, hexec, fun hp h8 h16 => ?_, fun hp => ?_, fun hp hval => ?_⟩
  · obtain ⟨hans, heng⟩ := answered_of_exec hexec (exec_settaglen ⟨hp, trivial, trivial, h8, h16⟩) (Nat.zero_le _)
    rw [heng]
    exact ⟨hans, toNat_taglen_of_le h16, rfl⟩
  · exact refused_of_exec hexec (refusedWith_phaseErr hp)
  · exact refused_of_exec hexec (refusedWith_invalidTagLength_iff.2 ⟨val, rfl, hp, hval⟩)

/-- Settles O14: the closed form of `INIT`, and its phase, key and length checks in their order. -/
theorem initOpensAnInvocation : Obligations.InitOpensAnInvocation := by
  unfold Obligations.InitOpensAnInvocation
  intro len dir s
  obtain ⟨t, hexec⟩ := exec_next (.init len dir) s
  refine ⟨t, hexec, fun hp hk hlen => ?_, fun hp => ?_, fun hp hk => ?_, fun hp hk hlen => ?_⟩
  · exact answered_of_exec hexec (exec_init ⟨hp, trivial, hk, hlen⟩) (Nat.zero_le _)
  · exact refused_of_exec hexec (refusedWith_phaseErr hp)
  · exact refused_of_exec (err := .noKey) hexec ⟨hp, trivial, by simp [KeyPresent, hk]⟩
  · exact refused_of_exec (err := .invalidLength) hexec ⟨rfl, hp, trivial, hk, hlen⟩

/-- Settles O20: the closed form of `ABORT` has no condition. -/
theorem abortDiscardsTheInvocation : Obligations.AbortDiscardsTheInvocation := by
  unfold Obligations.AbortDiscardsTheInvocation
  exact fun s => ⟨_, exec_abort s, answered_of_exec (exec_abort s) (exec_abort s) (Nat.zero_le _)⟩

/-- Settles O21: the closed form of `STATUS` has no condition and writes the registers back. -/
theorem statusChangesNothing : Obligations.StatusChangesNothing := by
  unfold Obligations.StatusChangesNothing
  exact fun s => ⟨_, exec_status s, answered_of_exec (exec_status s) (exec_status s) (Nat.zero_le _)⟩

/-! Errors. -/

theorem refusedWith_noKey_iff {i : Instr} {e : Engine} :
    RefusedWith i e .noKey ↔ (∃ len dir, i = .init len dir) ∧ BetweenInvocations e.phase ∧ e.keyv = false := by
  constructor
  · rintro ⟨hp, -, hk⟩
    cases i with
    | init len dir => exact ⟨⟨len, dir, rfl⟩, hp, Bool.eq_false_iff.2 hk⟩
    | _ => exact absurd trivial hk
  · rintro ⟨⟨len, dir, rfl⟩, hp, hk⟩
    exact ⟨hp, trivial, Bool.eq_false_iff.1 hk⟩

/-- Settles O23: only `INIT` checks for a key. -/
theorem noKeyExactlyForInitWithoutKey : Obligations.NoKeyExactlyForInitWithoutKey := by
  unfold Obligations.NoKeyExactlyForInitWithoutKey
  intro i s
  exact (exists_refused_iff (err := .noKey) (by decide) (by decide)).trans refusedWith_noKey_iff

theorem code_lengthErr (i : Instr) : (lengthErr i).code = lengthCode i := by
  cases i <;> rfl

/-- Settles O27: the answer has one code, and the clause whose check is the first to fail names it. -/
theorem firstErrorIsReported : Obligations.FirstErrorIsReported := by
  unfold Obligations.FirstErrorIsReported
  intro i s
  obtain ⟨e, err, bytes, hlen, hexec⟩ := exec_finishes i s
  have hans := finish_answered s e err bytes hlen
  have code_of {err' : Err} (h : RefusedWith i s.eng err') : err.code = err'.code :=
    hans.err_unique (refused_of_exec hexec h).answered
  refine ⟨_, err.code, bytes, hexec, hans, fun hp => ?phase, fun hp hd => ?dir, fun hp hd hk => ?key,
    fun hp hd hk ho => ?length, fun hruns => ?completes⟩
  case phase => exact code_of (refusedWith_phaseErr hp)
  case dir => exact code_of (err' := .phaseErr) fun hallowed => hd hallowed.2
  case key => exact code_of (err' := .noKey) ⟨hp, hd, hk⟩
  case length => exact (code_of (refusedWith_lengthErr hp hd hk ho)).trans (code_lengthErr i)
  case completes =>
    obtain ⟨e', err', bytes', hlen', hexec', hdone⟩ := exec_of_runs hruns
    have hcode : err.code = err'.code := hans.err_unique (answered_of_exec hexec hexec' hlen').1
    rw [hcode]
    obtain rfl | ⟨rfl, hverify⟩ := hdone
    · exact .inl rfl
    · exact .inr ⟨rfl, hverify⟩

/-! Steps and runs. -/

/-- Settles O7: the step takes the reset event and restores the registers. -/
theorem resetEventRestoresEveryRegister : Obligations.ResetEventRestoresEveryRegister := by
  unfold Obligations.ResetEventRestoresEveryRegister
  exact fun s rest hpend => ⟨_, step_reset hpend, rfl, rfl, rfl⟩

/-- Settles O8: the step with nothing pending is `step_idle`. -/
theorem engineWaitsForACommand : Obligations.EngineWaitsForACommand := by
  unfold Obligations.EngineWaitsForACommand
  exact fun s => step_idle

/-- Settles O10: an illegal word is answered without data, and every command ends with one response. -/
theorem everyPacketAnsweredOnce : Obligations.EveryPacketAnsweredOnce := by
  unfold Obligations.EveryPacketAnsweredOnce
  intro s p rest hpend
  match hdec : decode p.cmd with
  | .error why =>
    exact ⟨_, _, [], step_illegal hpend hdec, finish_answered _ _ _ _ (Nat.zero_le _), Err.code_le _, Nat.zero_le _⟩
  | .ok i =>
    obtain ⟨e, err, bytes, hlen, hexec⟩ := exec_finishes i _
    exact ⟨_, _, bytes, (step_command hpend hdec).trans hexec, finish_answered _ e err bytes hlen, Err.code_le _, hlen⟩

/-- A property that every step keeps holds after every run. -/
theorem run_invariant {P : State → Prop} (hstep : ∀ s t, P s → step s = .next t → P t) (k : Nat) {s : State}
    (hs : P s) : ∃ t : State, Sys2Proof.core.run k s = .next t ∧ P t := by
  induction k generalizing s with
  | zero => exact ⟨s, rfl, hs⟩
  | succ k ih =>
    obtain ⟨s', hs'⟩ := step_next s
    rw [run_succ k hs']
    exact ih (hstep s s' hs hs')

/-- Settles O11: every step answers a next state, so every run does. -/
theorem everyRunIsSafe : Obligations.EveryRunIsSafe := by
  unfold Obligations.EveryRunIsSafe
  intro k s
  obtain ⟨t, hrun, -⟩ := run_invariant (P := fun _ => True) (fun _ _ _ _ => trivial) k (s := s) trivial
  exact ⟨t, hrun⟩

end Sys2Proof.Machine
end

section
/-!
What a command may write, the phase it leads to, and how many bytes it returns (R25, R36, R67).
-/

namespace Sys2Proof.Machine

/-- What the command `i` leaves of the registers `e` when they become `e'` (R36). -/
structure WritesOnly (i : Instr) (e e' : Engine) : Prop where
  key : (∀ len, i ≠ .setkey len) → e'.k0 = e.k0 ∧ e'.k1 = e.k1 ∧ e'.keyv = e.keyv
  taglen : (∀ val, i ≠ .settaglen val) → e'.taglen = e.taglen
  invocation : (∃ len, i = .setkey len) ∨ (∃ val, i = .settaglen val) ∨ i = .status →
    e'.s = e.s ∧ e'.buf = e.buf ∧ e'.pos = e.pos ∧ e'.adbits = e.adbits ∧ e'.msgbits = e.msgbits ∧ e'.dir = e.dir ∧
      e'.phase = e.phase
  ad : (∃ len, i = .ad len) → e'.msgbits = e.msgbits ∧ e'.dir = e.dir
  crypt : (∃ len, i = .enc len ∨ i = .dec len) → e'.adbits = e.adbits ∧ e'.dir = e.dir

theorem WritesOnly.refl (i : Instr) (e : Engine) : WritesOnly i e e := by
  constructor <;> simp

/-- The registers of the engine after the bytes of a payload beat, but for `S`, `BUF` and `POS`. -/
theorem payload_sameBut (c : Config) (d : Dir) (e : Engine) (bs : List Byte) :
    SameBut e (cryptBytes c d (beginPayload c e) bs).2 :=
  (beginPayload_sameBut c e).trans (cryptBytes_sameBut c d _ bs)

/-- The registers after a command whose checks pass: what it may not write is as it was. -/
theorem exec_writesOnly {i : Instr} {s t : State} (hexec : exec i s = .next t) : WritesOnly i s.eng t.eng := by
  by_cases h : Runs i s.eng
  · cases i with
    | setkey len =>
      obtain rfl := finish_of_exec hexec (exec_setkey h)
      constructor <;> simp
    | settaglen val =>
      obtain rfl := finish_of_exec hexec (exec_settaglen h)
      constructor <;> simp
    | init len dir =>
      obtain rfl := finish_of_exec hexec (exec_init h)
      constructor <;> simp
    | ad len =>
      obtain rfl := finish_of_exec hexec (exec_ad h)
      have hs := takeBytes_sameBut config s.eng (s.din.first len)
      constructor <;> simp [hs.k0, hs.k1, hs.keyv, hs.taglen, hs.msgbits, hs.dir]
    | enc len =>
      obtain rfl := finish_of_exec hexec (exec_enc h)
      have hs := payload_sameBut config .encrypt s.eng (s.din.first len)
      constructor <;> simp [hs.k0, hs.k1, hs.keyv, hs.taglen, hs.adbits, hs.dir]
    | dec len =>
      obtain rfl := finish_of_exec hexec (exec_dec h)
      have hs := payload_sameBut config .decrypt s.eng (s.din.first len)
      constructor <;> simp [hs.k0, hs.k1, hs.keyv, hs.taglen, hs.adbits, hs.dir]
    | finalEmit =>
      obtain rfl := finish_of_exec hexec (exec_finalEmit h)
      constructor <;> simp
    | finalVerify len =>
      rw [exec_finalVerify h] at hexec
      split at hexec <;> obtain rfl := Host.Outcome.next.inj hexec <;> constructor <;> simp
    | abort =>
      obtain rfl := finish_of_exec hexec (exec_abort s)
      constructor <;> simp
    | status =>
      obtain rfl := finish_of_exec hexec (exec_status s)
      exact .refl _ _
  · rw [eng_of_not_runs hexec h]
    exact .refl _ _

/-- Settles O31: the five clauses are those of `WritesOnly`. -/
theorem commandsWriteOnlyTheirRegisters : Obligations.CommandsWriteOnlyTheirRegisters := by
  unfold Obligations.CommandsWriteOnlyTheirRegisters
  intro i s t hexec
  have h := exec_writesOnly hexec
  exact ⟨h.key, h.taglen, h.invocation, h.ad, h.crypt⟩

/-- `SETKEY` changes the key only where it runs, and then to the bytes of `DIN` (R130). -/
theorem exec_setkey_key {len : Nat} {s t : State} (hexec : exec (.setkey len) s = .next t) :
    (t.eng.k0 = s.eng.k0 ∧ t.eng.k1 = s.eng.k1 ∧ t.eng.keyv = s.eng.keyv) ∨
    (len = 32 ∧ BetweenInvocations s.eng.phase ∧ t.eng.k0 = s.din.lo ∧ t.eng.k1 = s.din.hi ∧ t.eng.keyv = true) := by
  by_cases h : Runs (.setkey len) s.eng
  · obtain rfl := finish_of_exec hexec (exec_setkey h)
    exact .inr ⟨h.operandAccepted, h.1, rfl, rfl, rfl⟩
  · rw [eng_of_not_runs hexec h]
    exact .inl ⟨rfl, rfl, rfl⟩

/-- `SETTAGLEN` changes the tag length only where it runs, and then to its value (R131). -/
theorem exec_settaglen_taglen {val : Nat} {s t : State} (hexec : exec (.settaglen val) s = .next t) :
    t.eng.taglen = s.eng.taglen ∨
    (BetweenInvocations s.eng.phase ∧ 8 ≤ val ∧ val ≤ 16 ∧ t.eng.taglen.toNat = val) := by
  by_cases h : Runs (.settaglen val) s.eng
  · obtain rfl := finish_of_exec hexec (exec_settaglen h)
    obtain ⟨h8, h16⟩ := h.operandAccepted
    exact .inr ⟨h.1, h8, h16, toNat_taglen_of_le h16⟩
  · rw [eng_of_not_runs hexec h]
    exact .inl rfl

/-- Settles O32: waiting and illegal words keep every register, a command other than the two keeps the Context, and
`0x00002001` is the one word of `SETKEY` with length 32. -/
theorem contextChangesOnlyBySetup : Obligations.ContextChangesOnlyBySetup := by
  unfold Obligations.ContextChangesOnlyBySetup
  intro s t hstep
  obtain ⟨-, hs⟩ | ⟨rest, hpend, -⟩ | ⟨p, rest, why, -, -, hs⟩ | ⟨p, rest, i, hpend, hdec, hs⟩ := step_cases s
  · obtain rfl := Host.Outcome.next.inj (hs.symm.trans hstep)
    exact ⟨.inl ⟨rfl, rfl, rfl⟩, .inl rfl⟩
  · exact ⟨.inr (.inl ⟨rest, hpend⟩), .inr (.inl ⟨rest, hpend⟩)⟩
  · obtain rfl := Host.Outcome.next.inj (hs.symm.trans hstep)
    exact ⟨.inl ⟨rfl, rfl, rfl⟩, .inl rfl⟩
  · have hexec := hs.symm.trans hstep
    have hframe := exec_writesOnly hexec
    constructor
    · by_cases hkey : ∃ len, i = .setkey len
      · obtain ⟨len, rfl⟩ := hkey
        obtain hsame | ⟨rfl, hp, hnew⟩ := exec_setkey_key hexec
        · exact .inl hsame
        · have hword : p.cmd = 0x00002001 := eq_of_decode_eq hdec (decode_encode (i := .setkey 32) rfl)
          exact .inr (.inr ⟨p, rest, hpend, hword, hp, hnew⟩)
      · exact .inl (hframe.key (not_exists.1 hkey))
    · by_cases htag : ∃ val, i = .settaglen val
      · obtain ⟨val, rfl⟩ := htag
        obtain hsame | hnew := exec_settaglen_taglen hexec
        · exact .inl hsame
        · exact .inr (.inr ⟨p, rest, val, hpend, hdec, hnew⟩)
      · exact .inl (hframe.taglen (not_exists.1 htag))

/-! The phase after a command. -/

theorem nextPhase_of_runs {i : Instr} {s t : State} (h : Runs i s.eng) (hexec : exec i s = .next t) :
    NextPhase i s.eng.phase t.eng.phase := by
  cases i with
  | setkey len => obtain rfl := finish_of_exec hexec (exec_setkey h); rfl
  | settaglen val => obtain rfl := finish_of_exec hexec (exec_settaglen h); rfl
  | init len dir => obtain rfl := finish_of_exec hexec (exec_init h); rfl
  | ad len => obtain rfl := finish_of_exec hexec (exec_ad h); rfl
  | enc len => obtain rfl := finish_of_exec hexec (exec_enc h); rfl
  | dec len => obtain rfl := finish_of_exec hexec (exec_dec h); rfl
  | finalEmit => obtain rfl := finish_of_exec hexec (exec_finalEmit h); rfl
  | finalVerify len =>
    rw [exec_finalVerify h] at hexec
    split at hexec <;> obtain rfl := Host.Outcome.next.inj hexec
    · exact .inl rfl
    · exact .inr rfl
  | abort => obtain rfl := finish_of_exec hexec (exec_abort s); rfl
  | status => obtain rfl := finish_of_exec hexec (exec_status s); rfl

theorem not_open_of_between {p : Phase} (hopen : InvocationOpen p) : ¬ BetweenInvocations p := by
  rintro (rfl | rfl | rfl | rfl) <;> simp [InvocationOpen] at hopen

theorem code_le_processingPayload {p : Phase} (hopen : InvocationOpen p) : p.code ≤ Phase.code .processingPayload := by
  obtain rfl | rfl | rfl := hopen <;> decide

/-- Within an invocation a command that runs never leads back (R25). -/
theorem code_le_of_nextPhase {i : Instr} {p q : Phase} (hallowed : AllowedInPhase i p) (hnext : NextPhase i p q)
    (hp : InvocationOpen p) (hq : InvocationOpen q) : p.code ≤ q.code := by
  cases i with
  | setkey | settaglen | init => exact absurd hallowed (not_open_of_between hp)
  | ad =>
    obtain rfl : q = .absorbingAd := hnext
    obtain rfl | rfl := hallowed <;> decide
  | enc | dec =>
    obtain rfl : q = .processingPayload := hnext
    exact code_le_processingPayload hp
  | finalEmit | abort => obtain rfl := hnext; simp [InvocationOpen] at hq
  | finalVerify => obtain rfl | rfl := hnext <;> simp [InvocationOpen] at hq
  | status => obtain rfl : q = p := hnext; exact le_rfl

/-- An invocation is left by its two ends and by `ABORT` alone (R25). -/
theorem leaves_open_of_nextPhase {i : Instr} {p q : Phase} (hallowed : AllowedInPhase i p) (hnext : NextPhase i p q)
    (hp : InvocationOpen p) (hq : ¬ InvocationOpen q) :
    i = .finalEmit ∨ (∃ len, i = .finalVerify len) ∨ i = .abort := by
  cases i with
  | setkey | settaglen | init => exact absurd hallowed (not_open_of_between hp)
  | ad | enc | dec => obtain rfl := hnext; simp [InvocationOpen] at hq
  | finalEmit => exact .inl rfl
  | finalVerify len => exact .inr (.inl ⟨len, rfl⟩)
  | abort => exact .inr (.inr rfl)
  | status => obtain rfl : q = p := hnext; exact absurd hp hq

/-- Settles O29: a command that runs follows the table, a refused one keeps the phase. -/
theorem phaseFollowsTheTable : Obligations.PhaseFollowsTheTable := by
  unfold Obligations.PhaseFollowsTheTable
  intro i s
  obtain ⟨t, hexec⟩ := exec_next i s
  by_cases h : Runs i s.eng
  · have hnext := nextPhase_of_runs h hexec
    exact ⟨t, hexec, fun _ => hnext, fun hrefused => absurd h hrefused, code_le_of_nextPhase h.1 hnext,
      leaves_open_of_nextPhase h.1 hnext⟩
  · have hphase : t.eng.phase = s.eng.phase := congrArg Engine.phase (eng_of_not_runs hexec h)
    exact ⟨t, hexec, fun hruns => absurd hruns h, fun _ => hphase, fun _ _ => (congrArg Phase.code hphase).ge,
      fun hp hq => absurd (hphase ▸ hp) hq⟩

/-! How many bytes a command returns. -/

theorem exec_output_of_runs {i : Instr} {s : State} (h : Runs i s.eng) (htag : s.eng.taglen.toNat ≤ 16) :
    ∃ (e : Engine) (err : Err) (bytes : List Byte), exec i s = .next (s.finish e err bytes) ∧
      bytes.length = outputLength i s.eng.taglen ∧ bytes.length ≤ 16 := by
  have beat {len : Nat} (hlen : len ≤ 16) : (s.din.first len).length = len := length_first _ (by omega)
  cases i with
  | setkey len => exact ⟨_, _, _, exec_setkey h, rfl, Nat.zero_le _⟩
  | settaglen val => exact ⟨_, _, _, exec_settaglen h, rfl, Nat.zero_le _⟩
  | init len dir => exact ⟨_, _, _, exec_init h, rfl, Nat.zero_le _⟩
  | ad len => exact ⟨_, _, _, exec_ad h, rfl, Nat.zero_le _⟩
  | enc len =>
    have hlen : len ≤ 16 := h.operandAccepted
    exact ⟨_, _, _, exec_enc h, by simp [beat hlen, outputLength], by simpa [beat hlen] using hlen⟩
  | dec len =>
    have hlen : len ≤ 16 := h.operandAccepted
    exact ⟨_, _, _, exec_dec h, by simp [beat hlen, outputLength], by simpa [beat hlen] using hlen⟩
  | finalEmit => exact ⟨_, _, _, exec_finalEmit h, by simpa [outputLength] using htag, by simp⟩
  | finalVerify len =>
    rw [exec_finalVerify h]
    split
    · exact ⟨_, _, _, rfl, rfl, Nat.zero_le _⟩
    · exact ⟨_, _, _, rfl, rfl, Nat.zero_le _⟩
  | abort => exact ⟨_, _, _, exec_abort s, rfl, Nat.zero_le _⟩
  | status => exact ⟨_, _, _, exec_status s, rfl, Nat.zero_le _⟩

/-- Settles O30: a command that runs returns the bytes of its closed form, a refused one none. -/
theorem outputLengthByCommand : Obligations.OutputLengthByCommand := by
  unfold Obligations.OutputLengthByCommand
  intro i s htag
  by_cases h : Runs i s.eng
  · obtain ⟨e, err, bytes, hexec, hout, hlen⟩ := exec_output_of_runs h htag
    exact ⟨_, _, bytes, hexec, finish_answered s e err bytes hlen, fun _ => hout, fun hrefused => absurd h hrefused⟩
  · obtain ⟨err, hwith⟩ := exists_refusedWith_of_not_runs h
    exact ⟨_, _, [], exec_of_refusedWith hwith, (finish_refused s err).answered, fun hruns => absurd hruns h,
      fun _ => rfl⟩

end Sys2Proof.Machine
end

section
/-!
The invariants of R35: they hold at reset and every step keeps them.
-/

namespace Sys2Proof.Machine

/-! Counting bits: `POS` follows a counter of whole bytes, also when it wraps (R27, R35(h) to (j)). -/

theorem add_bitCount_mod {a : BitVec 64} (n : Nat) (h : a.toNat % 8 = 0) : (a + bitCount n).toNat % 8 = 0 := by
  rw [bitCount, BitVec.toNat_add, BitVec.toNat_ofNat]
  omega

theorem pos_add_bitCount {a : BitVec 64} {p n : Nat} (h : a.toNat % 8 = 0) (hp : p = a.toNat / 8 % 16) :
    (p + n) % 16 = (a + bitCount n).toNat / 8 % 16 := by
  rw [bitCount, BitVec.toNat_add, BitVec.toNat_ofNat]
  omega

/-! The registers each command leaves. -/

/-- Between invocations, with the invocation registers cleared, only the tag length is left to check. -/
theorem inv_cleared {e : Engine} {p : Phase} (h : 8 ≤ e.taglen.toNat ∧ e.taglen.toNat ≤ 16)
    (hp : BetweenInvocations p) : ({ clearInvocation e with phase := p } : Engine).Inv where
  taglen_range := h
  buf_padded := by simp
  not_transient := by rintro rfl; simp [BetweenInvocations] at hp
  cleared := by simp
  keyed hopen := absurd hp (not_open_of_between hopen)
  fresh := by simp
  absorbing := by rintro rfl; simp [BetweenInvocations] at hp
  processing := by simp
  whole_bytes := by simp

theorem inv_reset : Engine.reset.Inv := inv_cleared (e := Engine.reset) (by simp) (.inl rfl)

theorem inv_setkey {e : Engine} (k0 k1 : Block) (h : e.Inv) :
    ({ e with k0 := k0, k1 := k1, keyv := true } : Engine).Inv where
  taglen_range := h.taglen_range
  buf_padded := h.buf_padded
  not_transient := h.not_transient
  cleared := h.cleared
  keyed _ := rfl
  fresh := h.fresh
  absorbing := h.absorbing
  processing := h.processing
  whole_bytes := h.whole_bytes

theorem inv_settaglen {e : Engine} {n : BitVec 5} (h : e.Inv) (h8 : 8 ≤ n.toNat) (h16 : n.toNat ≤ 16) :
    ({ e with taglen := n } : Engine).Inv where
  taglen_range := ⟨h8, h16⟩
  buf_padded := h.buf_padded
  not_transient := h.not_transient
  cleared := h.cleared
  keyed := h.keyed
  fresh := h.fresh
  absorbing := h.absorbing
  processing := h.processing
  whole_bytes := h.whole_bytes

theorem inv_init {e : Engine} (S : SixBlocks) (dir : Dir) (h : e.Inv) (hk : e.keyv = true) :
    ({ clearInvocation e with s := S, dir := dir, phase := .initialized } : Engine).Inv where
  taglen_range := h.taglen_range
  buf_padded := by simp
  not_transient := by simp
  cleared := by simp [BetweenInvocations]
  keyed _ := hk
  fresh := by simp
  absorbing := by simp
  processing := by simp
  whole_bytes := by simp

/-- Before any payload `POS` counts the associated data, and no payload bit is counted (R35(g), (h)). -/
theorem pos_of_takesAd {e : Engine} (h : e.Inv) (hp : e.phase = .initialized ∨ e.phase = .absorbingAd) :
    e.msgbits = 0 ∧ e.pos.val = e.adbits.toNat / 8 % 16 := by
  obtain hp | hp := hp
  · obtain ⟨hpos, had, hmsg⟩ := h.fresh hp
    exact ⟨hmsg, by simp [hpos, had]⟩
  · exact h.absorbing hp

theorem inv_ad {e : Engine} (data : List Byte) (h : e.Inv) (hp : e.phase = .initialized ∨ e.phase = .absorbingAd) :
    ({ takeBytes config e data with
      adbits := e.adbits + bitCount data.length, phase := .absorbingAd } : Engine).Inv := by
  have hs := takeBytes_sameBut config e data
  obtain ⟨hmsg, hpos⟩ := pos_of_takesAd h hp
  obtain ⟨had8, hmsg8⟩ := h.whole_bytes
  exact {
    taglen_range := by simpa [hs.taglen] using h.taglen_range
    buf_padded := takeBytes_bufPadded config e data h.buf_padded
    not_transient := by simp
    cleared := by simp [BetweenInvocations]
    keyed := fun _ => hs.keyv.trans (h.keyed (hp.imp_right .inl))
    fresh := by simp
    absorbing := fun _ => ⟨hs.msgbits.trans hmsg, (takeBytes_pos config e data).trans (pos_add_bitCount had8 hpos)⟩
    processing := by simp
    whole_bytes := ⟨add_bitCount_mod _ had8, by simpa [hs.msgbits] using hmsg8⟩ }

/-- Where a payload beat starts, `POS` counts the payload (R35(i)); before the first one the tail was flushed. -/
theorem pos_beginPayload {e : Engine} (h : e.Inv) (hp : InvocationOpen e.phase) :
    (beginPayload config e).pos.val = e.msgbits.toNat / 8 % 16 := by
  obtain ⟨hb, hproc⟩ | ⟨hb, hproc⟩ := beginPayload_eq config e
  · rw [hb]
    exact h.processing hproc
  · have had : e.phase = .initialized ∨ e.phase = .absorbingAd := by
      simpa [InvocationOpen, hproc] using hp
    simp [hb, (pos_of_takesAd h had).1]

theorem inv_payload {e : Engine} (d : Dir) (data : List Byte) (h : e.Inv) (hp : InvocationOpen e.phase) :
    ({ (cryptBytes config d (beginPayload config e) data).2 with
      msgbits := e.msgbits + bitCount data.length, phase := .processingPayload } : Engine).Inv := by
  have hs := payload_sameBut config d e data
  have hplain : (plainOf d data (cryptBytes config d (beginPayload config e) data).1).length = data.length := by
    cases d <;> simp [plainOf]
  obtain ⟨had8, hmsg8⟩ := h.whole_bytes
  exact {
    taglen_range := by simpa [hs.taglen] using h.taglen_range
    buf_padded := by
      rw [cryptBytes_engine]
      exact takeBytes_bufPadded config _ _ (beginPayload_bufPadded config e h.buf_padded)
    not_transient := by simp
    cleared := by simp [BetweenInvocations]
    keyed := fun _ => hs.keyv.trans (h.keyed hp)
    fresh := by simp
    absorbing := by simp
    processing := fun _ => by
      rw [cryptBytes_engine]
      simpa only [takeBytes_pos, hplain] using pos_add_bitCount hmsg8 (pos_beginPayload h hp)
    whole_bytes := ⟨by simpa [hs.adbits] using had8, add_bitCount_mod _ hmsg8⟩ }

/-- Every command keeps the register invariants. -/
theorem exec_inv {i : Instr} {s t : State} (hexec : exec i s = .next t) (hinv : s.eng.Inv) : t.eng.Inv := by
  have beat {len : Nat} (hlen : len ≤ 16) : (s.din.first len).length = len := length_first _ (by omega)
  by_cases h : Runs i s.eng
  · cases i with
    | setkey len =>
      obtain rfl := finish_of_exec hexec (exec_setkey h)
      exact inv_setkey _ _ hinv
    | settaglen val =>
      obtain rfl := finish_of_exec hexec (exec_settaglen h)
      obtain ⟨h8, h16⟩ := h.operandAccepted
      exact inv_settaglen hinv (by rwa [toNat_taglen_of_le h16]) (by rwa [toNat_taglen_of_le h16])
    | init len dir =>
      obtain rfl := finish_of_exec hexec (exec_init h)
      obtain ⟨-, -, hk, -⟩ := h
      exact inv_init _ dir hinv hk
    | ad len =>
      obtain rfl := finish_of_exec hexec (exec_ad h)
      simpa [beat h.operandAccepted] using inv_ad (s.din.first len) hinv h.1
    | enc len =>
      obtain rfl := finish_of_exec hexec (exec_enc h)
      simpa [beat h.operandAccepted] using inv_payload .encrypt (s.din.first len) hinv h.1
    | dec len =>
      obtain rfl := finish_of_exec hexec (exec_dec h)
      simpa [beat h.operandAccepted] using inv_payload .decrypt (s.din.first len) hinv h.1
    | finalEmit =>
      obtain rfl := finish_of_exec hexec (exec_finalEmit h)
      exact inv_cleared hinv.taglen_range (.inr (.inl rfl))
    | finalVerify len =>
      rw [exec_finalVerify h] at hexec
      split at hexec <;> obtain rfl := Host.Outcome.next.inj hexec
      · exact inv_cleared hinv.taglen_range (.inr (.inr (.inl rfl)))
      · exact inv_cleared hinv.taglen_range (.inr (.inr (.inr rfl)))
    | abort =>
      obtain rfl := finish_of_exec hexec (exec_abort s)
      exact inv_cleared hinv.taglen_range (.inl rfl)
    | status =>
      obtain rfl := finish_of_exec hexec (exec_status s)
      exact hinv
  · rwa [eng_of_not_runs hexec h]

/-! The responses. -/

/-- A response to at most sixteen bytes is well shaped when the registers it reports have the invariants. -/
theorem responseOf_good {e : Engine} (err : Err) {bytes : List Byte} (hlen : bytes.length ≤ 16) (h : e.Inv) :
    (responseOf err bytes e).Good where
  err_range := by
    rw [responseOf_err err bytes hlen]
    exact Err.code_le err
  phase_seen := by
    rw [responseOf_phase err bytes hlen]
    exact fun hcode => h.not_transient (Phase.code_inj hcode)
  olen_range := by rwa [responseOf_olen err bytes hlen]
  taglen_range := by
    rw [responseOf_taglen err bytes hlen]
    exact h.taglen_range
  reserved := responseOf_reservedZero err bytes hlen e
  lanes j hj := by
    rw [responseOf_olen err bytes hlen] at hj
    rw [responseOf_dout, byte_zeropad]
    exact List.getD_eq_default _ _ hj

theorem finish_inv {s : State} {e : Engine} (err : Err) {bytes : List Byte} (h : s.Inv) (he : e.Inv)
    (hlen : bytes.length ≤ 16) : (s.finish e err bytes).Inv where
  eng := he
  responses r hr := by
    rw [State.finish_responses, List.mem_append, List.mem_singleton] at hr
    obtain hr | rfl := hr
    · exact h.responses r hr
    · exact responseOf_good err hlen he

/-- Settles O36: the reset registers are cleared ones, and no response was given yet. -/
theorem invariantHoldsAtReset : Obligations.InvariantHoldsAtReset := by
  unfold Obligations.InvariantHoldsAtReset
  exact ⟨inv_reset, by simp⟩

theorem step_inv {s t : State} (h : s.Inv) (hstep : step s = .next t) : t.Inv := by
  obtain ⟨-, hs⟩ | ⟨rest, -, hs⟩ | ⟨p, rest, why, -, -, hs⟩ | ⟨p, rest, i, -, -, hs⟩ := step_cases s
  · obtain rfl := Host.Outcome.next.inj (hs.symm.trans hstep)
    exact h
  · obtain rfl := Host.Outcome.next.inj (hs.symm.trans hstep)
    exact ⟨inv_reset, h.responses⟩
  · obtain rfl := Host.Outcome.next.inj (hs.symm.trans hstep)
    exact finish_inv .illegalCmd ⟨h.eng, h.responses⟩ h.eng (Nat.zero_le _)
  · have hexec := hs.symm.trans hstep
    have he := exec_inv hexec h.eng
    obtain ⟨e, err, bytes, hlen, hform⟩ := exec_finishes i (({ s with pending := rest } : State).present p)
    obtain rfl := Host.Outcome.next.inj (hform.symm.trans hexec)
    exact finish_inv err ⟨h.eng, h.responses⟩ he hlen

/-- Settles O37: waiting changes nothing, reset gives the reset registers, an illegal word keeps them, and every
command keeps the invariants. -/
theorem everyStepKeepsTheInvariant : Obligations.EveryStepKeepsTheInvariant := by
  unfold Obligations.EveryStepKeepsTheInvariant
  exact fun _ _ => step_inv

/-- Settles O38: the invariants hold at reset whatever is pending, and every step keeps them. -/
theorem invariantHoldsAtEveryBoundary : Obligations.InvariantHoldsAtEveryBoundary := by
  unfold Obligations.InvariantHoldsAtEveryBoundary
  intro events k
  exact run_invariant (P := State.Inv) (fun _ _ => step_inv) k ⟨inv_reset, by simp⟩

end Sys2Proof.Machine
end

section
/-!
One beat of a stream, whole: the closed forms of `AD`, `ENC` and `DEC` (R100 to R102, R110 to R112).
-/

namespace Sys2Proof.Machine

/-! The stream registers `S`, `BUF`, `POS`, which the byte-serial operations read and write. -/

/-- `e'` has the stream registers of `e`. -/
structure SameStream (e e' : Engine) : Prop where
  s : e'.s = e.s
  buf : e'.buf = e.buf
  pos : e'.pos = e.pos

theorem SameStream.refl (e : Engine) : SameStream e e := ⟨rfl, rfl, rfl⟩

theorem SameStream.trans {a b c : Engine} (h : SameStream a b) (h' : SameStream b c) : SameStream a c :=
  ⟨h'.s.trans h.s, h'.buf.trans h.buf, h'.pos.trans h.pos⟩

/-- The stream registers and the others together are the whole engine. -/
theorem SameBut.eq_of_sameStream {e e' : Engine} (h : SameBut e e') (hs : SameStream e e') : e' = e := by
  cases e; cases e'
  obtain ⟨rfl, rfl, rfl, rfl, rfl, rfl, rfl, rfl⟩ := h
  obtain ⟨rfl, rfl, rfl⟩ := hs
  rfl

section Congr
variable {e e' : Engine} (h : SameStream e e')
include h

theorem takeByte_sameStream (c : Config) (b : Byte) : SameStream (takeByte c e b) (takeByte c e' b) := by
  simp only [takeByte, h.s, h.buf, h.pos]
  split <;> exact ⟨rfl, rfl, rfl⟩

theorem takeBytes_sameStream (c : Config) (bs : List Byte) : SameStream (takeBytes c e bs) (takeBytes c e' bs) := by
  induction bs generalizing e e' with
  | nil => exact h
  | cons b bs ih => exact ih (takeByte_sameStream h c b)

/-- The output bytes of a beat depend on the stream registers alone. -/
theorem cryptBytes_output_congr (c : Config) (d : Dir) (bs : List Byte) :
    (cryptBytes c d e' bs).1 = (cryptBytes c d e bs).1 := by
  induction bs generalizing e e' with
  | nil => rfl
  | cons b bs ih =>
    have hout : (cryptByte c d e' b).1 = (cryptByte c d e b).1 := by simp only [cryptByte, h.s, h.pos]
    have hnext : SameStream (cryptByte c d e b).2 (cryptByte c d e' b).2 := by
      simp only [cryptByte, h.s, h.pos]
      exact takeByte_sameStream h c _
    rw [cryptBytes_cons, cryptBytes_cons, hout, ih hnext]

theorem cryptBytes_sameStream (c : Config) (d : Dir) (bs : List Byte) :
    SameStream (cryptBytes c d e bs).2 (cryptBytes c d e' bs).2 := by
  rw [cryptBytes_engine, cryptBytes_engine, cryptBytes_output_congr h]
  exact takeBytes_sameStream h c _

theorem flushTail_sameStream (c : Config) : SameStream (flushTail c e) (flushTail c e') :=
  ⟨by rw [flushTail_s, flushTail_s, h.s, h.buf, h.pos], rfl, rfl⟩

theorem beginPayload_sameStream (c : Config) (hp : e'.phase = e.phase) :
    SameStream (beginPayload c e) (beginPayload c e') := by
  unfold beginPayload
  rw [hp]
  split
  · exact h
  · exact flushTail_sameStream h c

end Congr

/-! At most 31 bytes: one Block at most is complete. -/

theorem wholeBlocks_of_lt_16 {l : List Byte} (h : l.length < 16) : wholeBlocks l = [] ∧ leftOver l = l := by
  have hq : l.length / 16 = 0 := by omega
  simp [wholeBlocks, leftOver, hq]

theorem wholeBlocks_of_lt_32 {l : List Byte} (h16 : 16 ≤ l.length) (h32 : l.length < 32) :
    wholeBlocks l = [zeropad (l.take 16)] ∧ leftOver l = l.drop 16 := by
  have hq : l.length / 16 = 1 := by omega
  simp [wholeBlocks, leftOver, hq]

/-- A padded engine stands as if its waiting bytes had just been taken (R28). -/
theorem absorbed_heldBytes (c : Config) {e : Engine} (h : TailPadded e) : Absorbed c e.s (heldBytes e) e := by
  have hlt : (heldBytes e).length < 16 := by simp
  obtain ⟨hw, hl⟩ := wholeBlocks_of_lt_16 hlt
  exact ⟨by rw [hw, absorbAll_nil], by rw [hl, zeropad_heldBytes h], by simp [Nat.mod_eq_of_lt e.pos.isLt]⟩

/-- After at most 31 bytes the stream registers are those of `Engine.streamed`. -/
theorem Absorbed.sameStream_streamed {c : Config} {S : SixBlocks} {l : List Byte} {e' : Engine}
    (h : Absorbed c S l e') (hl : l.length < 32) (e : Engine) : SameStream (e.streamed c S l) e' := by
  have hpos : e'.pos = Fin.ofNat 16 l.length := Fin.ext h.pos
  by_cases h16 : l.length < 16
  · obtain ⟨hw, hleft⟩ := wholeBlocks_of_lt_16 h16
    exact ⟨by simp [h.s, hw, Engine.streamed, h16], by simp [h.buf, hleft, Engine.streamed, h16], hpos⟩
  · obtain ⟨hw, hleft⟩ := wholeBlocks_of_lt_32 (Nat.le_of_not_lt h16) hl
    exact ⟨by simp [h.s, hw, Engine.streamed, h16], by simp [h.buf, hleft, Engine.streamed, h16], hpos⟩

theorem streamed_sameBut (c : Config) (e : Engine) (S : SixBlocks) (data : List Byte) :
    SameBut (e.streamed c S data) e := ⟨rfl, rfl, rfl, rfl, rfl, rfl, rfl, rfl⟩

/-- The closed form of `takeByte` over a beat (R100). -/
theorem takeBytes_eq_streamed (c : Config) {e : Engine} {data : List Byte} (h : TailPadded e)
    (hdata : data.length ≤ 16) : takeBytes c e data = e.streamed c e.s (heldBytes e ++ data) := by
  have hlen : (heldBytes e ++ data).length < 32 := by
    rw [List.length_append, length_heldBytes]
    omega
  have hbut : SameBut (e.streamed c e.s (heldBytes e ++ data)) (takeBytes c e data) :=
    (streamed_sameBut c e e.s _).trans (takeBytes_sameBut c e data)
  exact hbut.eq_of_sameStream (((absorbed_heldBytes c h).takeBytes data).sameStream_streamed hlen e)

/-- Settles O15: the closed form of `AD`, and of `takeByte` over its bytes. -/
theorem adTakesABeat : Obligations.AdTakesABeat := by
  unfold Obligations.AdTakesABeat
  intro len s hp hlen hpad
  have hform := exec_ad (s := s) (len := len) ⟨hp, trivial, trivial, hlen⟩
  rw [takeBytes_eq_streamed config hpad ((length_first_le s.din len).trans hlen)] at hform
  exact ⟨_, hform, answered_of_exec hform hform (Nat.zero_le _)⟩

/-! The key stream a beat meets. -/

/-- The key stream reads no `S[0]`, so the absorbed Block does not show in it (R91, R110). -/
theorem keystream_absorbBlock (c : Config) (S : SixBlocks) (msg : Block) :
    keystream (absorbBlock c S msg) = keystream (update c S) := rfl

/-- Within 31 bytes the State is as it was until the Block is full, and has absorbed one Block after that. -/
theorem takeBytes_s (c : Config) (e : Engine) (data : List Byte) (h : e.pos.val + data.length < 32) :
    (e.pos.val + data.length < 16 ∧ (takeBytes c e data).s = e.s) ∨
    (16 ≤ e.pos.val + data.length ∧ ∃ msg, (takeBytes c e data).s = absorbBlock c e.s msg) := by
  induction data using List.reverseRecOn with
  | nil => exact .inl ⟨e.pos.isLt, rfl⟩
  | append_singleton bs b ih =>
    rw [List.length_append, List.length_singleton] at h ⊢
    have hpos := takeBytes_pos c e bs
    rw [takeBytes_append, takeBytes_cons, takeBytes_nil]
    obtain ⟨hlt, hs⟩ | ⟨hge, msg, hs⟩ := ih (by omega)
    · obtain ⟨hfull, ht⟩ | ⟨hmore, ht, -⟩ := takeByte_cases c (takeBytes c e bs) b
      · exact .inr ⟨by omega, _, by rw [ht, hs]⟩
      · exact .inl ⟨by omega, by rw [ht]; exact hs⟩
    · obtain ⟨hfull, ht⟩ | ⟨hmore, ht, -⟩ := takeByte_cases c (takeBytes c e bs) b
      · omega
      · exact .inr ⟨by omega, msg, by rw [ht]; exact hs⟩

theorem keystream_takeBytes (c : Config) (e : Engine) (data : List Byte) (h : e.pos.val + data.length < 32) :
    keystream (takeBytes c e data).s =
      keystream (if e.pos.val + data.length < 16 then e.s else update c e.s) := by
  obtain ⟨hlt, hs⟩ | ⟨hge, msg, hs⟩ := takeBytes_s c e data h
  · rw [hs, if_pos hlt]
  · rw [hs, if_neg (by omega), keystream_absorbBlock]

theorem beatOutput_snoc (c : Config) (S : SixBlocks) (p : Nat) (bs : List Byte) (b : Byte) :
    beatOutput c S p (bs ++ [b]) = beatOutput c S p bs ++
      [b ^^^ (keystream (if p + bs.length < 16 then S else update c S)).byte (Fin.ofNat 16 (p + bs.length))] := by
  have hold : ∀ j ∈ List.range bs.length, (bs ++ [b]).getD j 0 = bs.getD j 0 := fun j hj =>
    List.getD_append _ _ _ _ (List.mem_range.1 hj)
  rw [beatOutput, List.length_append, List.length_singleton, List.range_succ, List.map_append, List.map_singleton,
    beatOutput, List.map_congr_left fun j hj => by rw [hold j hj]]
  simp

theorem length_plainOf (c : Config) (d : Dir) (e : Engine) (bs : List Byte) :
    (plainOf d bs (cryptBytes c d e bs).1).length = bs.length := by
  cases d <;> simp [plainOf]

/-- The output of a beat of at most sixteen bytes, whatever the direction and the waiting bytes (R111, R112, R115). -/
theorem cryptBytes_output (c : Config) (d : Dir) (e : Engine) (bs : List Byte) (h : bs.length ≤ 16) :
    (cryptBytes c d e bs).1 = beatOutput c e.s e.pos.val bs := by
  induction bs using List.reverseRecOn with
  | nil => rfl
  | append_singleton bs b ih =>
    rw [List.length_append, List.length_singleton] at h
    have hlen := length_plainOf c d e bs
    have hlt : e.pos.val + bs.length < 32 := by omega
    have hpos : (cryptBytes c d e bs).2.pos = Fin.ofNat 16 (e.pos.val + bs.length) := by
      apply Fin.ext
      rw [cryptBytes_engine, takeBytes_pos, hlen]
      rfl
    have hkey : keystream (cryptBytes c d e bs).2.s =
        keystream (if e.pos.val + bs.length < 16 then e.s else update c e.s) := by
      rw [cryptBytes_engine, keystream_takeBytes c e _ (by rwa [hlen]), hlen]
    rw [cryptBytes_append, beatOutput_snoc, ← ih (by omega), ← hkey, ← hpos]
    rfl

/-! Where a payload beat starts. -/

theorem flushTail_s_eq_flushedBlocks (c : Config) (e : Engine) : (flushTail c e).s = flushedBlocks c e := by
  rw [flushTail_s, flushedBlocks]
  by_cases h : e.pos = 0
  · simp [h]
  · rw [if_neg h, if_pos (Nat.pos_of_ne_zero fun hv => h (Fin.ext hv))]

theorem heldBytes_of_pos_zero {e : Engine} (h : e.pos = 0) : heldBytes e = [] := by
  simp [heldBytes, h]

/-- The engine a payload beat starts from, in the terms of `payloadStart` and `payloadHeld` (R101, R111). -/
theorem beginPayload_start (c : Config) (e : Engine) :
    (beginPayload c e).s = payloadStart c e ∧ heldBytes (beginPayload c e) = payloadHeld e := by
  unfold payloadStart payloadHeld
  obtain ⟨hb, hp⟩ | ⟨hb, hp⟩ := beginPayload_eq c e
  · rw [hb, if_pos hp, if_pos hp]
    exact ⟨rfl, rfl⟩
  · rw [hb, if_neg hp, if_neg hp]
    exact ⟨flushTail_s_eq_flushedBlocks c e, heldBytes_of_pos_zero rfl⟩

theorem streamed_beginPayload (c : Config) (e : Engine) (S : SixBlocks) (data : List Byte) :
    (beginPayload c e).streamed c S data = e.streamed c S data := by
  obtain ⟨hb, -⟩ | ⟨hb, -⟩ := beginPayload_eq c e
  · rw [hb]
  · rw [hb]
    rfl

/-- One payload beat, in either direction: the output, and the plaintext taken (R111, R112). -/
theorem cryptBeat_takes {d : Dir} {len : Nat} {s : State} (hp : InvocationOpen s.eng.phase) (hd : s.eng.dir = d)
    (hlen : len ≤ 16) (hpad : TailPadded s.eng) :
    let S := payloadStart config s.eng
    let held := payloadHeld s.eng
    let out := beatOutput config S held.length (s.din.first len)
    ∃ t, cryptBeat d len s = .next t ∧ Answered s t 0 out ∧
      t.eng = { s.eng.streamed config S (held ++ plainOf d (s.din.first len) out) with
        msgbits := s.eng.msgbits + bitCount len, phase := .processingPayload } := by
  intro S held out
  obtain ⟨hS, hheld⟩ := beginPayload_start config s.eng
  have hdata : (s.din.first len).length ≤ 16 := (length_first_le s.din len).trans hlen
  have hout : (cryptBytes config d (beginPayload config s.eng) (s.din.first len)).1 = out := by
    rw [cryptBytes_output config d _ _ hdata, hS, ← length_heldBytes, hheld]
  have hplain : (plainOf d (s.din.first len) out).length ≤ 16 := by
    rw [← hout, length_plainOf]
    exact hdata
  have hform := exec_crypt hp hd hlen
  rw [cryptBytes_engine, hout, takeBytes_eq_streamed config (beginPayload_bufPadded config s.eng hpad) hplain, hS,
    hheld, streamed_beginPayload] at hform
  exact ⟨_, hform, finish_answered s _ .ok out (by simpa [out, beatOutput] using hdata), rfl⟩

/-- Settles O16: the beat of `cryptBeat`, encrypting. -/
theorem encEncryptsABeat : Obligations.EncEncryptsABeat := by
  unfold Obligations.EncEncryptsABeat
  exact fun _ _ hp hd hlen hpad => cryptBeat_takes hp hd hlen hpad

/-- Settles O17: the beat of `cryptBeat`, decrypting. -/
theorem decDecryptsABeat : Obligations.DecDecryptsABeat := by
  unfold Obligations.DecDecryptsABeat
  exact fun _ _ hp hd hlen hpad => cryptBeat_takes hp hd hlen hpad

/-- Settles O41: the output is that of `beatOutput`, which names no direction. -/
theorem encAndDecReturnTheSameBytes : Obligations.EncAndDecReturnTheSameBytes := by
  unfold Obligations.EncAndDecReturnTheSameBytes
  intro s len hp hlen
  have hdata : (s.din.first len).length ≤ 16 := (length_first_le s.din len).trans hlen
  have beat (d : Dir) : ∃ t, cryptBeat d len { s with eng := { s.eng with dir := d } } = .next t ∧
      Answered s t 0 (beatOutput config (beginPayload config s.eng).s (beginPayload config s.eng).pos.val
        (s.din.first len)) := by
    have hsame : SameStream (beginPayload config s.eng) (beginPayload config { s.eng with dir := d }) :=
      beginPayload_sameStream (e := s.eng) (e' := { s.eng with dir := d }) ⟨rfl, rfl, rfl⟩ config rfl
    refine ⟨_, exec_crypt hp rfl hlen, ?_⟩
    rw [← hsame.s, ← hsame.pos, ← cryptBytes_output config d _ _ hdata]
    obtain ⟨hdin, hpending, hresponse⟩ := finish_answered _ _ .ok _ ((length_cryptBytes config d _ _).trans_le hdata)
    exact ⟨hdin, hpending, hresponse⟩
  obtain ⟨t, hexec, hans⟩ := beat .encrypt
  obtain ⟨t', hexec', hans'⟩ := beat .decrypt
  exact ⟨t, t', _, hexec, hexec', hans, hans'⟩

end Sys2Proof.Machine
end

section
/-!
The two ends of an invocation (R120 to R124), and what a command's answer does not depend on (R22, R33, R94).
-/

namespace Sys2Proof.Machine

/-! `FINAL_EMIT`. -/

theorem finishStream_eq_derivedOf (c : Config) (e : Engine) : (finishStream c e).2 = derivedOf c e := by
  rw [finishStream_derived, flushTail_s_eq_flushedBlocks]
  rfl

/-- The closed form of `FINAL_EMIT`, in the terms of `derivedOf` and `discarded` (R121). -/
theorem exec_finalEmit_derived {s : State} (hp : InvocationOpen s.eng.phase) (hd : s.eng.dir = .encrypt) :
    exec .finalEmit s = .next (s.finish (s.eng.discarded .tagEmitted) .ok
      ((derivedOf config s.eng).toList.take s.eng.taglen.toNat)) := by
  rw [exec_finalEmit ⟨hp, hd, trivial, trivial⟩, finishStream_eq_derivedOf]
  rfl

theorem length_tag_le (b : Block) (n : Nat) : (b.toList.take n).length ≤ 16 := by
  simp

/-- Settles O18: the closed form of `FINAL_EMIT`. -/
theorem finalEmitReturnsTheTag : Obligations.FinalEmitReturnsTheTag := by
  unfold Obligations.FinalEmitReturnsTheTag
  intro s hp hd
  have hform := exec_finalEmit_derived hp hd
  exact ⟨_, hform, answered_of_exec hform hform (length_tag_le _ _)⟩

/-- Settles O42: `derived` does not depend on the tag length, and sixteen bytes are the whole Block. -/
theorem shorterTagIsAPrefix : Obligations.ShorterTagIsAPrefix := by
  unfold Obligations.ShorterTagIsAPrefix
  intro s n hp hd _ _
  have emit (m : BitVec 5) : ∃ t, exec .finalEmit { s with eng := { s.eng with taglen := m } } = .next t ∧
      Answered s t 0 ((derivedOf config s.eng).toList.take m.toNat) := by
    obtain ⟨hdin, hpending, hresponse⟩ := finish_answered { s with eng := { s.eng with taglen := m } }
      (Engine.discarded { s.eng with taglen := m } .tagEmitted) .ok _ (length_tag_le (derivedOf config s.eng) m.toNat)
    exact ⟨_, exec_finalEmit_derived hp hd, hdin, hpending, hresponse⟩
  obtain ⟨t, hexec, hans⟩ := emit 16
  obtain ⟨t', hexec', hans'⟩ := emit n
  have hwhole : (derivedOf config s.eng).toList.take (16 : BitVec 5).toNat = (derivedOf config s.eng).toList :=
    List.take_of_length_le (Block.length_toList _).le
  rw [hwhole] at hans
  exact ⟨t, t', _, hexec, hans, hexec', hans'⟩

/-! `FINAL_VERIFY`. -/

/-- The accumulated difference is zero exactly when it started zero and every byte is zero. -/
theorem foldl_or_eq_zero_iff (l : List Byte) (a : Byte) :
    l.foldl (fun diff b => diff ||| (b ^^^ 0x00)) a = 0 ↔ a = 0 ∧ ∀ b ∈ l, b = 0 := by
  induction l generalizing a with
  | nil => simp
  | cons b l ih =>
    have hbyte : a ||| (b ^^^ 0x00) = 0 ↔ a = 0 ∧ b = 0 := by simp
    rw [List.foldl_cons, ih, List.forall_mem_cons, hbyte, and_assoc]

theorem isZero_iff (acc : Block) (n : Nat) : isZero acc n = true ↔ ∀ j : Fin 16, j.val < n → acc.byte j = 0 := by
  rw [isZero, beq_iff_eq, foldl_or_eq_zero_iff, List.forall_mem_iff_getElem]
  simp only [true_and, List.getElem_take, Block.getElem_toList, List.length_take, Block.length_toList]
  constructor
  · exact fun h j hj => h j.val (by omega)
  · exact fun h i hi => h ⟨i, by omega⟩ (by simp only; omega)

/-- Settles O59: the zero-check in terms of the bytes. -/
theorem zeroCheckReadsExactlyTheTagBytes : Obligations.ZeroCheckReadsExactlyTheTagBytes := by
  unfold Obligations.ZeroCheckReadsExactlyTheTagBytes
  exact isZero_iff

/-- The difference of a received tag and `derived` is zero exactly when the tag is the leading bytes of `derived`. -/
theorem isZero_xorBlock_iff {tag : List Byte} {derived : Block} (h : tag.length ≤ 16) :
    isZero (xorBlock (zeropad tag) derived) tag.length = true ↔ tag = derived.toList.take tag.length := by
  have hbyte (j : Fin 16) (hj : j.val < tag.length) :
      (xorBlock (zeropad tag) derived).byte j = 0 ↔ tag[j.val] = derived.byte j := by
    rw [byte_xorBlock, byte_zeropad, List.getD_eq_getElem _ _ hj]
    exact BitVec.xor_eq_zero_iff
  rw [isZero_iff]
  constructor
  · intro hzero
    apply List.ext_getElem
    · simpa using h
    · intro i hi _
      rw [List.getElem_take, Block.getElem_toList]
      exact (hbyte ⟨i, by omega⟩ hi).1 (hzero ⟨i, by omega⟩ hi)
  · intro heq j hj
    have hget := List.getElem_of_eq heq hj
    rw [List.getElem_take, Block.getElem_toList] at hget
    exact (hbyte j hj).2 hget

/-- The closed form of `FINAL_VERIFY`, in the terms of `derivedOf` and `discarded` (R123, R148). -/
theorem exec_finalVerify_derived {s : State} {len : Nat} (hp : InvocationOpen s.eng.phase) (hd : s.eng.dir = .decrypt)
    (hlen : len = s.eng.taglen.toNat) (h16 : len ≤ 16) :
    exec (.finalVerify len) s =
      if s.din.first len = (derivedOf config s.eng).toList.take len then
        .next (s.finish (s.eng.discarded .verified) .ok [])
      else .next (s.finish (s.eng.discarded .authFailed) .authFail []) := by
  have hfirst : (s.din.first len).length = len := length_first _ (by omega)
  have hzero := isZero_xorBlock_iff (tag := s.din.first len) (derived := derivedOf config s.eng) (by omega)
  rw [hfirst] at hzero
  rw [exec_finalVerify ⟨hp, hd, trivial, hlen⟩, finishStream_eq_derivedOf]
  by_cases htag : s.din.first len = (derivedOf config s.eng).toList.take len
  · rw [if_pos htag, if_pos (hzero.2 htag)]
    rfl
  · rw [if_neg htag, if_neg fun h => htag (hzero.1 h)]
    rfl

/-- Settles O19: the two branches of the closed form. -/
theorem finalVerifyComparesTheTag : Obligations.FinalVerifyComparesTheTag := by
  unfold Obligations.FinalVerifyComparesTheTag
  intro len s hp hd hlen _ h16
  obtain ⟨t, hexec⟩ := exec_next (.finalVerify len) s
  have hform := exec_finalVerify_derived hp hd hlen h16
  refine ⟨t, hexec, fun htag => ?_, fun htag => ?_⟩
  · rw [if_pos htag] at hform
    exact answered_of_exec hexec hform (Nat.zero_le _)
  · rw [if_neg htag] at hform
    exact answered_of_exec hexec hform (Nat.zero_le _)

/-! The key is read by `INIT` alone. -/

/-- The engine with another key (R22). -/
def Engine.withKey (e : Engine) (k0 k1 : Block) : Engine := { e with k0 := k0, k1 := k1 }

theorem Engine.withKey_sameStream (e : Engine) (k0 k1 : Block) : SameStream e (e.withKey k0 k1) := ⟨rfl, rfl, rfl⟩

/-- The machine with another key. -/
def State.withKey (s : State) (k0 k1 : Block) : State := { s with eng := s.eng.withKey k0 k1 }

/-- The answer does not report the key. -/
theorem responseOf_withKey (err : Err) (bytes : List Byte) (e : Engine) (k0 k1 : Block) :
    responseOf err bytes (e.withKey k0 k1) = responseOf err bytes e := rfl

/-- Engines that agree but for the key. -/
theorem withKey_eq_of_same {e e' f : Engine} {k0 k1 : Block} (hf : SameBut e f)
    (he' : SameBut (e.withKey k0 k1) e') (hs : SameStream f e') : e' = f.withKey k0 k1 := by
  refine SameBut.eq_of_sameStream ⟨he'.k0, he'.k1, ?_, ?_, ?_, ?_, ?_, ?_⟩ ⟨hs.s, hs.buf, hs.pos⟩
  · exact he'.keyv.trans hf.keyv.symm
  · exact he'.taglen.trans hf.taglen.symm
  · exact he'.phase.trans hf.phase.symm
  · exact he'.dir.trans hf.dir.symm
  · exact he'.adbits.trans hf.adbits.symm
  · exact he'.msgbits.trans hf.msgbits.symm

theorem takeBytes_withKey (c : Config) (e : Engine) (k0 k1 : Block) (bs : List Byte) :
    takeBytes c (e.withKey k0 k1) bs = (takeBytes c e bs).withKey k0 k1 :=
  withKey_eq_of_same (takeBytes_sameBut c e bs) (takeBytes_sameBut c _ bs)
    (takeBytes_sameStream (e.withKey_sameStream k0 k1) c bs)

theorem payload_withKey (c : Config) (d : Dir) (e : Engine) (k0 k1 : Block) (bs : List Byte) :
    cryptBytes c d (beginPayload c (e.withKey k0 k1)) bs =
      ((cryptBytes c d (beginPayload c e) bs).1, (cryptBytes c d (beginPayload c e) bs).2.withKey k0 k1) := by
  have hs := beginPayload_sameStream (e.withKey_sameStream k0 k1) c rfl
  exact Prod.ext (cryptBytes_output_congr hs c d bs)
    (withKey_eq_of_same (payload_sameBut c d e bs) (payload_sameBut c d _ bs) (cryptBytes_sameStream hs c d bs))

/-- Under another key a command other than `INIT` gives the same answer and, the key apart, the same registers. -/
theorem exec_withKey {i : Instr} (s : State) (k0 k1 : Block) (hi : ∀ len dir, i ≠ .init len dir) :
    ∃ (e e' : Engine) (err : Err) (bytes : List Byte), exec i s = .next (s.finish e err bytes) ∧
      exec i (s.withKey k0 k1) = .next ((s.withKey k0 k1).finish e' err bytes) ∧ e = e'.withKey e.k0 e.k1 := by
  by_cases h : Runs i s.eng
  · have h' : Runs i (s.withKey k0 k1).eng := h
    cases i with
    | setkey len => exact ⟨_, _, _, _, exec_setkey h, exec_setkey h', rfl⟩
    | settaglen val => exact ⟨_, _, _, _, exec_settaglen h, exec_settaglen h', rfl⟩
    | init len dir => exact absurd rfl (hi len dir)
    | ad len =>
      have hform := exec_ad h'
      rw [State.withKey, takeBytes_withKey] at hform
      exact ⟨_, _, _, _, exec_ad h, hform, rfl⟩
    | enc len =>
      have hform := exec_enc h'
      rw [State.withKey, payload_withKey] at hform
      exact ⟨_, _, _, _, exec_enc h, hform, rfl⟩
    | dec len =>
      have hform := exec_dec h'
      rw [State.withKey, payload_withKey] at hform
      exact ⟨_, _, _, _, exec_dec h, hform, rfl⟩
    | finalEmit => exact ⟨_, _, _, _, exec_finalEmit h, exec_finalEmit h', rfl⟩
    | finalVerify len =>
      have hderived : (finishStream config (s.withKey k0 k1).eng).2 = (finishStream config s.eng).2 := rfl
      rw [exec_finalVerify h, exec_finalVerify h', hderived]
      by_cases hzero : isZero (xorBlock (zeropad (s.din.first len)) (finishStream config s.eng).2) len = true
      · exact ⟨_, _, _, _, if_pos hzero, if_pos hzero, rfl⟩
      · exact ⟨_, _, _, _, if_neg hzero, if_neg hzero, rfl⟩
    | abort => exact ⟨_, _, _, _, exec_abort s, exec_abort _, rfl⟩
    | status => exact ⟨_, _, _, _, exec_status s, exec_status _, rfl⟩
  · obtain ⟨err, hwith⟩ := exists_refusedWith_of_not_runs h
    have hwith' : RefusedWith i (s.withKey k0 k1).eng err := by cases err <;> exact hwith
    exact ⟨_, _, _, _, exec_of_refusedWith hwith, exec_of_refusedWith hwith', rfl⟩

/-- Settles O33: the answer names no key, and the other registers are the same. -/
theorem keyIsReadOnlyByInit : Obligations.KeyIsReadOnlyByInit := by
  unfold Obligations.KeyIsReadOnlyByInit
  intro i s k0 k1 hi
  obtain ⟨e, e', err, bytes, hexec, hexec', heng⟩ := exec_withKey s k0 k1 hi
  refine ⟨_, _, hexec, hexec', ?_, heng.symm⟩
  have hresponse : responseOf err bytes e = responseOf err bytes e' := by
    rw [heng, responseOf_withKey]
  rw [State.finish_responses, State.finish_responses, hresponse]
  rfl

/-- Settles O40: the closed form of `INIT` builds `S` from `K` and `DIN` alone. -/
theorem initDependsOnKeyAndNonceOnly : Obligations.InitDependsOnKeyAndNonceOnly := by
  unfold Obligations.InitDependsOnKeyAndNonceOnly
  intro s s' dir dir' h h' hk0 hk1 hdin
  refine ⟨_, _, exec_init h, exec_init h', ?_⟩
  simp only [State.finish_eng, hk0, hk1, hdin]

/-! The registers a response reports. -/

/-- `e'` has the registers of `e` that a response reports (R66). -/
structure SameStatus (e e' : Engine) : Prop where
  phase : e'.phase = e.phase
  keyv : e'.keyv = e.keyv
  taglen : e'.taglen = e.taglen
  dir : e'.dir = e.dir

theorem responseOf_congr {e e' : Engine} (h : SameStatus e e') (err : Err) (bytes : List Byte) :
    responseOf err bytes e' = responseOf err bytes e := by
  simp only [responseOf, rspWord, h.phase, h.keyv, h.taglen, h.dir]

/-- The checks of R149 read no register but those a response reports. -/
theorem refusedWith_congr {i : Instr} {e e' : Engine} (h : SameStatus e e') (err : Err) :
    RefusedWith i e' err ↔ RefusedWith i e err := by
  cases err <;> simp only [RefusedWith, h.phase, h.keyv, h.taglen, h.dir]

theorem runs_congr {i : Instr} {e e' : Engine} (h : SameStatus e e') : Runs i e' ↔ Runs i e := by
  simp only [Runs, h.phase, h.keyv, h.taglen, h.dir]

/-- The commands that return no bytes and no verdict answer alike wherever the reported registers are alike. -/
theorem exec_answers_alike {i : Instr} {s s' : State} (h : SameStatus s.eng s'.eng)
    (hi : ∀ len, i ≠ .enc len ∧ i ≠ .dec len ∧ i ≠ .finalVerify len) (hemit : i ≠ .finalEmit) :
    ∃ (e e' : Engine) (err : Err), exec i s = .next (s.finish e err []) ∧
      exec i s' = .next (s'.finish e' err []) ∧ SameStatus e e' := by
  have ⟨hphase, hkeyv, htaglen, hdir⟩ := h
  by_cases hruns : Runs i s.eng
  · have hruns' : Runs i s'.eng := (runs_congr h).2 hruns
    cases i with
    | setkey len => exact ⟨_, _, _, exec_setkey hruns, exec_setkey hruns', hphase, rfl, htaglen, hdir⟩
    | settaglen val => exact ⟨_, _, _, exec_settaglen hruns, exec_settaglen hruns', hphase, hkeyv, rfl, hdir⟩
    | init len dir => exact ⟨_, _, _, exec_init hruns, exec_init hruns', rfl, hkeyv, htaglen, rfl⟩
    | ad len =>
      have hs := takeBytes_sameBut config s.eng (s.din.first len)
      have hs' := takeBytes_sameBut config s'.eng (s'.din.first len)
      exact ⟨_, _, _, exec_ad hruns, exec_ad hruns', rfl, hs'.keyv.trans (hkeyv.trans hs.keyv.symm),
        hs'.taglen.trans (htaglen.trans hs.taglen.symm), hs'.dir.trans (hdir.trans hs.dir.symm)⟩
    | enc len => exact absurd rfl (hi len).1
    | dec len => exact absurd rfl (hi len).2.1
    | finalEmit => exact absurd rfl hemit
    | finalVerify len => exact absurd rfl (hi len).2.2
    | abort => exact ⟨_, _, _, exec_abort s, exec_abort s', rfl, hkeyv, htaglen, rfl⟩
    | status => exact ⟨_, _, _, exec_status s, exec_status s', hphase, hkeyv, htaglen, hdir⟩
  · obtain ⟨err, hwith⟩ := exists_refusedWith_of_not_runs hruns
    exact ⟨_, _, _, exec_of_refusedWith hwith, exec_of_refusedWith ((refusedWith_congr h err).2 hwith),
      hphase, hkeyv, htaglen, hdir⟩

/-- Settles O34: the answers are alike, so the lists of responses are. -/
theorem noReadbackOfSecrets : Obligations.NoReadbackOfSecrets := by
  unfold Obligations.NoReadbackOfSecrets
  intro i s s' hi hemit hphase hkeyv htaglen hdir hresponses
  obtain ⟨e, e', err, hexec, hexec', hstatus⟩ := exec_answers_alike ⟨hphase, hkeyv, htaglen, hdir⟩ hi hemit
  refine ⟨_, _, hexec, hexec', ?_⟩
  rw [State.finish_responses, State.finish_responses, hresponses, responseOf_congr hstatus]

/-! Padding. -/

/-- One zero byte more, still short of a Block, absorbs to the same State (R104). -/
theorem processWhole_append_zero (c : Config) (S : SixBlocks) {bytes : List Byte} (h0 : 0 < bytes.length)
    (h15 : bytes.length < 15) : processWhole c S (bytes ++ [0]) = processWhole c S bytes := by
  have short {l : List Byte} (hl0 : 0 < l.length) (hl : l.length < 16) :
      processWhole c S l = absorbBlock c S (zeropad l) := by
    obtain ⟨hw, hleft⟩ := wholeBlocks_of_lt_16 hl
    rw [processWhole, hw, hleft, absorbAll_nil, if_neg hl0.ne']
  rw [short (by simp) (by simp; omega), short h0 (by omega), zeropad_append_zero]

/-- After `INIT` nothing was taken yet (R35(c), (g)). -/
theorem absorbed_of_initialized {e : Engine} (hinv : e.Inv) (hp : e.phase = .initialized) :
    Absorbed config e.s [] e := by
  obtain ⟨hpos, -, -⟩ := hinv.fresh hp
  simpa [heldBytes_of_pos_zero hpos] using absorbed_heldBytes config hinv.buf_padded

/-- The first beat of associated data of an invocation: its flushed State and its count. -/
theorem exec_ad_first {s : State} {bytes : List Byte} (hinv : s.eng.Inv) (hp : s.eng.phase = .initialized)
    (hlen : bytes.length ≤ 16) :
    ∃ t, exec (.ad bytes.length) { s with din := dataInOf bytes } = .next t ∧
      (flushTail config t.eng).s = processWhole config s.eng.s bytes ∧ t.eng.adbits = bitCount bytes.length := by
  obtain ⟨-, had, -⟩ := hinv.fresh hp
  have hstart := absorbed_of_initialized hinv hp
  refine ⟨_, exec_ad ⟨.inl hp, trivial, trivial, hlen⟩, ?_, ?_⟩
  · rw [first_dataInOf bytes (by omega)]
    exact ((hstart.takeBytes bytes).congr rfl rfl rfl).flushTail
  · simp [had]

/-- Settles O50: both beats flush to the same State, and their counts are eight apart. -/
theorem paddingIsToldApartByAdbits : Obligations.PaddingIsToldApartByAdbits := by
  unfold Obligations.PaddingIsToldApartByAdbits
  intro s bytes hinv hp h0 h15
  have hlen : (bytes ++ [(0 : Byte)]).length = bytes.length + 1 := by simp
  obtain ⟨t, hexec, hflush, hbits⟩ := exec_ad_first (bytes := bytes) hinv hp (by omega)
  obtain ⟨t', hexec', hflush', hbits'⟩ := exec_ad_first (bytes := bytes ++ [0]) hinv hp (by omega)
  rw [hlen] at hexec' hbits'
  refine ⟨t, t', hexec, hexec', ?_, ?_⟩
  · rw [hflush', hflush, processWhole_append_zero config _ h0 h15]
  · rw [hbits', hbits, bitCount, bitCount, ne_eq, ← BitVec.toNat_inj, BitVec.toNat_ofNat, BitVec.toNat_ofNat]
    omega

end Sys2Proof.Machine
end

section
/-!
The functions of the datapath: the AES round (R82 to R86), `update` and `absorbBlock` (R90, R91); and the beats of the
pseudo-commands (R69).
-/

namespace Sys2Proof.Machine

/-! `update` and `absorbBlock`. -/

/-- Settles O54: each assignment reads the Blocks that the earlier ones have not yet overwritten. -/
theorem inPlaceOrderComputesUpdate : Obligations.InPlaceOrderComputesUpdate := by
  unfold Obligations.InPlaceOrderComputesUpdate
  intro c S carry A B C D E
  rfl

theorem xorBlock_cancel (a b : Block) : xorBlock a (xorBlock a b) = b := by
  rw [← xorBlock_assoc, xorBlock_self, zero_xorBlock]

/-- Settles O56: XOR with the Block of `update` is its own inverse. -/
theorem absorbedBlockEntersS0Only : Obligations.AbsorbedBlockEntersS0Only := by
  unfold Obligations.AbsorbedBlockEntersS0Only
  intro c S
  have hinv : Function.Involutive fun msg => (absorbBlock c S msg).s0 := xorBlock_cancel (update c S).s0
  exact ⟨hinv.bijective, fun _ => rfl⟩

/-- The State of six times the Block `b`. -/
def SixBlocks.const (b : Block) : SixBlocks := ⟨b, b, b, b, b, b⟩

theorem update_const (c : Config) (b : Block) : update c (.const b) = .const (aesRound c b b) := rfl

/-- The Block of sixteen bytes `0xc5`. -/
def blockC5 : Block := Block.ofFn fun _ => 0xc5

theorem aesRound_blockC5 : aesRound config blockC5 blockC5 = aesRound config Block.zero Block.zero := by
  decide +kernel

/-- Refutes O55: the States of equal Blocks `00` and of equal Blocks `c5` have the same image, since
`SBOX[00] ^ 00 = SBOX[c5] ^ c5` (assumption log 11). -/
theorem not_updateIsInvertible : ¬ Obligations.UpdateIsInvertible := by
  unfold Obligations.UpdateIsInvertible
  intro hinj
  have himage : update config (.const blockC5) = update config (.const Block.zero) := by
    rw [update_const, update_const, aesRound_blockC5]
  exact absurd (congrArg SixBlocks.s0 (hinj himage)) (by decide)

/-! `SBOX`. -/

/-- The inverse of the affine map of R83: three rotations and the constant `0x05`. -/
def affineInverse (y : Byte) : Byte := y.rotateLeft 1 ^^^ y.rotateLeft 3 ^^^ y.rotateLeft 6 ^^^ 0x05

/-- Bit `i` of the affine image of `v` with constant `0x63` (R83). -/
def affineBit (v : Byte) (i : Nat) : Bool :=
  (v.getLsbD i ^^ v.getLsbD ((i + 4) % 8)) ^^ (v.getLsbD ((i + 5) % 8) ^^ v.getLsbD ((i + 6) % 8)) ^^
    (v.getLsbD ((i + 7) % 8) ^^ (0x63 : Byte).getLsbD i)

theorem affineBit_affineInverse (y : Byte) (i : Fin 8) : affineBit (affineInverse y) i.val = y.getLsbD i.val := by
  have check : ∀ (n : Fin 256) (j : Fin 8),
      affineBit (affineInverse (.ofFin n)) j.val = (BitVec.ofFin n : Byte).getLsbD j.val := by decide +kernel
  exact check y.toFin i

/-- `SBOX[x]` taken back through the affine map is the inverse of `x` in GF(2^8). -/
theorem gmul_affineInverse_sbox {x : Byte} (h : x ≠ 0) : gmul x (affineInverse (sbox x)) = 1 := by
  have check : ∀ n : Fin 256, n ≠ 0 → gmul (.ofFin n) (affineInverse (sbox (.ofFin n))) = 1 := by decide +kernel
  exact check x.toFin fun h0 => h (congrArg BitVec.ofFin h0)

/-- Settles O51: `v` is `SBOX[x]` taken back through the affine map. -/
theorem sboxIsInverseThenAffine : Obligations.SboxIsInverseThenAffine := by
  unfold Obligations.SboxIsInverseThenAffine
  refine fun x => ⟨affineInverse (sbox x), ?zero, gmul_affineInverse_sbox, fun i => ?affine⟩
  case zero =>
    rintro rfl
    decide
  case affine => exact (affineBit_affineInverse (sbox x) i).symm

/-- The numbers of a list as the bits of one number. -/
def bitsOf (l : List Nat) : Nat := l.foldr (fun n m => 2 ^ n ||| m) 0

theorem testBit_bitsOf (l : List Nat) (n : Nat) : (bitsOf l).testBit n = true ↔ n ∈ l := by
  induction l with
  | nil => simp [bitsOf]
  | cons a l ih =>
    have hcons : bitsOf (a :: l) = 2 ^ a ||| bitsOf l := rfl
    rw [hcons, Nat.testBit_or, Bool.or_eq_true, ih, Nat.testBit_two_pow, decide_eq_true_iff, List.mem_cons, eq_comm]

/-- Every byte value stands in `SBOX`: together they set 256 bits. -/
theorem bitsOf_sbox : bitsOf ((List.range 256).map fun n => (sbox (.ofNat 8 n)).toNat) = 2 ^ 256 - 1 := by
  decide +kernel

theorem sbox_surjective : Function.Surjective sbox := by
  intro y
  have hbit : (bitsOf ((List.range 256).map fun n => (sbox (.ofNat 8 n)).toNat)).testBit y.toNat = true := by
    rw [bitsOf_sbox, Nat.testBit_two_pow_sub_one, decide_eq_true_iff]
    exact y.isLt
  obtain ⟨n, -, hn⟩ := List.mem_map.1 ((testBit_bitsOf _ _).1 hbit)
  exact ⟨.ofNat 8 n, BitVec.eq_of_toNat_eq hn⟩

theorem sbox_bijective : Function.Bijective sbox := by
  have hfinite : Finite Byte := Finite.of_injective BitVec.toFin fun _ _ => BitVec.eq_of_toFin_eq
  exact Finite.surjective_iff_bijective.1 sbox_surjective

/-! The parts of the AES round, column by column. -/

/-- Byte `r` of column `c` of a Block (R84, R85). -/
def column (a : Block) (c r : Nat) : Byte := a.byte (Fin.ofNat 16 (4 * c + r))

/-- Byte `r` of the fixed matrix times the column `s` (R85). -/
def mixByte (s : Nat → Byte) (r : Nat) : Byte :=
  match r with
  | 0 => gmul (s 0) 2 ^^^ gmul (s 1) 3 ^^^ s 2 ^^^ s 3
  | 1 => s 0 ^^^ gmul (s 1) 2 ^^^ gmul (s 2) 3 ^^^ s 3
  | 2 => s 0 ^^^ s 1 ^^^ gmul (s 2) 2 ^^^ gmul (s 3) 3
  | _ => gmul (s 0) 3 ^^^ s 1 ^^^ s 2 ^^^ gmul (s 3) 2

theorem eq_of_column_eq {a b : Block} (h : ∀ c < 4, ∀ r < 4, column a c r = column b c r) : a = b := by
  ext1 i
  have hi : Fin.ofNat 16 (4 * (i.val / 4) + i.val % 4) = i := by
    apply Fin.ext
    simp only [Fin.ofNat]
    omega
  have hcol := h (i.val / 4) (by omega) (i.val % 4) (by omega)
  rwa [column, column, hi] at hcol

theorem column_mixColumns (a : Block) {c r : Nat} (hc : c < 4) (hr : r < 4) :
    column (mixColumns a) c r = mixByte (column a c) r := by
  have hrow : (Fin.ofNat 16 (4 * c + r)).val % 4 = r := by simp only [Fin.ofNat]; omega
  have hcol : (Fin.ofNat 16 (4 * c + r)).val / 4 = c := by simp only [Fin.ofNat]; omega
  rw [column, mixColumns, Block.byte_ofFn]
  simp only [hrow, hcol]
  rfl

theorem column_shiftRows (a : Block) {c r : Nat} (hc : c < 4) (hr : r < 4) :
    column (shiftRows a) c r = a.byte (Fin.ofNat 16 (r + 4 * ((c + r) % 4))) := by
  have hrow : (Fin.ofNat 16 (4 * c + r)).val % 4 = r := by simp only [Fin.ofNat]; omega
  have hcol : (Fin.ofNat 16 (4 * c + r)).val / 4 = c := by simp only [Fin.ofNat]; omega
  rw [column, byte_shiftRows, hrow, hcol]

/-- A byte of the AES round: the matrix times the substituted bytes of the rotated rows, XOR the byte added (R86). -/
theorem column_aesRound (a b : Block) {c r : Nat} (hc : c < 4) (hr : r < 4) :
    column (aesRound config a b) c r =
      mixByte (column (shiftRows (subBytes a)) c) r ^^^ column b c r := by
  rw [← column_mixColumns _ hc hr]
  exact byte_aesRound config a b _

/-- Settles O52: the rows of the matrix, one by one, on the rotated and substituted column. -/
theorem aesRoundByteByByte : Obligations.AesRoundByteByByte := by
  unfold Obligations.AesRoundByteByByte
  intro a b c s out old
  have hs {r : Nat} (hr : r < 4) : column (shiftRows (subBytes a)) c r = s r := by
    rw [column_shiftRows _ c.isLt hr, byte_subBytes]
  have hout {r : Nat} (hr : r < 4) : out r = mixByte (column (shiftRows (subBytes a)) c) r ^^^ old r :=
    column_aesRound a b c.isLt hr
  rw [hout (r := 0) (by decide), hout (r := 1) (by decide), hout (r := 2) (by decide), hout (r := 3) (by decide)]
  simp only [mixByte, hs (r := 0) (by decide), hs (r := 1) (by decide), hs (r := 2) (by decide),
    hs (r := 3) (by decide), and_self]

/-! `aesCore` is a permutation: `MixColumns` and `ShiftRows` have order four. -/

theorem gmul_two (a : Byte) : gmul a 2 = xtime a := by
  simp [gmul, gmulBits]

theorem gmul_three (a : Byte) : gmul a 3 = xtime a ^^^ a := by
  simp [gmul, gmulBits, BitVec.xor_comm]

theorem xor_left_comm (a b c : Byte) : a ^^^ (b ^^^ c) = b ^^^ (a ^^^ c) := by
  rw [← BitVec.xor_assoc, BitVec.xor_comm a b, BitVec.xor_assoc]

theorem xor_cancel_left (a b : Byte) : a ^^^ (a ^^^ b) = b := by
  rw [← BitVec.xor_assoc, BitVec.xor_self, BitVec.zero_xor]

theorem xtime_xor (a b : Byte) : xtime (a ^^^ b) = xtime a ^^^ xtime b := by
  simp only [xtime, BitVec.getLsbD_xor, BitVec.shiftLeft_xor_distrib]
  cases a.getLsbD 7 <;> cases b.getLsbD 7 <;>
    simp [BitVec.xor_assoc, BitVec.xor_comm, xor_left_comm]

/-- The XOR of a column. -/
def columnSum (s : Nat → Byte) : Byte := s 0 ^^^ s 1 ^^^ s 2 ^^^ s 3

/-- A row of the matrix is `x` at the byte and the next one, and the whole column but the byte. -/
theorem mixByte_eq (s : Nat → Byte) {r : Nat} (hr : r < 4) :
    mixByte s r = xtime (s r) ^^^ xtime (s ((r + 1) % 4)) ^^^ columnSum s ^^^ s r := by
  interval_cases r <;>
    simp only [mixByte, columnSum, gmul_two, gmul_three, Nat.reduceAdd, Nat.reduceMod, BitVec.xor_assoc,
      BitVec.xor_comm, xor_left_comm, xor_cancel_left]

theorem columnSum_mixByte (s : Nat → Byte) : columnSum (mixByte s) = columnSum s := by
  have h0 := mixByte_eq s (r := 0) (by decide)
  have h1 := mixByte_eq s (r := 1) (by decide)
  have h2 := mixByte_eq s (r := 2) (by decide)
  have h3 := mixByte_eq s (r := 3) (by decide)
  rw [columnSum, h0, h1, h2, h3]
  simp only [columnSum, Nat.reduceAdd, Nat.reduceMod, BitVec.xor_assoc, BitVec.xor_comm, xor_left_comm,
    xor_cancel_left, BitVec.xor_self, BitVec.xor_zero]

/-- The square of the matrix: `x^2` at the byte and the one opposite, and the byte. -/
theorem mixByte_mixByte (s : Nat → Byte) {r : Nat} (hr : r < 4) :
    mixByte (mixByte s) r = xtime (xtime (s r)) ^^^ xtime (xtime (s ((r + 2) % 4))) ^^^ s r := by
  have hnext : ((r + 1) % 4 + 1) % 4 = (r + 2) % 4 := by omega
  rw [mixByte_eq (mixByte s) hr, columnSum_mixByte, mixByte_eq s hr, mixByte_eq s (by omega : (r + 1) % 4 < 4), hnext]
  generalize columnSum s = t
  simp only [xtime_xor, BitVec.xor_assoc, BitVec.xor_comm, xor_left_comm, xor_cancel_left]

/-- The fixed matrix has order four. -/
theorem mixByte_four_times (s : Nat → Byte) {r : Nat} (hr : r < 4) :
    mixByte (mixByte (mixByte (mixByte s))) r = s r := by
  have hback : ((r + 2) % 4 + 2) % 4 = r := by omega
  rw [mixByte_mixByte (mixByte (mixByte s)) hr, mixByte_mixByte s hr, mixByte_mixByte s (by omega : (r + 2) % 4 < 4),
    hback]
  simp only [xtime_xor, BitVec.xor_assoc, BitVec.xor_comm, xor_left_comm, xor_cancel_left, BitVec.xor_self,
    BitVec.xor_zero]

theorem mixByte_congr {s s' : Nat → Byte} (h : ∀ k < 4, s k = s' k) (r : Nat) : mixByte s r = mixByte s' r := by
  unfold mixByte
  rw [h 0 (by decide), h 1 (by decide), h 2 (by decide), h 3 (by decide)]

theorem mixColumns_four_times (a : Block) : mixColumns (mixColumns (mixColumns (mixColumns a))) = a := by
  refine eq_of_column_eq fun c hc r hr => ?_
  rw [column_mixColumns _ hc hr, ← mixByte_four_times (column a c) hr]
  refine mixByte_congr (fun r hr => (column_mixColumns _ hc hr).trans ?_) r
  refine mixByte_congr (fun r hr => (column_mixColumns _ hc hr).trans ?_) r
  exact mixByte_congr (fun r hr => column_mixColumns _ hc hr) r

/-- Where byte `i` of `shiftRows` comes from (R84). -/
def rowSource (i : Fin 16) : Fin 16 := Fin.ofNat 16 (i.val % 4 + 4 * ((i.val / 4 + i.val % 4) % 4))

theorem rowSource_four_times : ∀ i, rowSource (rowSource (rowSource (rowSource i))) = i := by decide

theorem shiftRows_four_times (a : Block) : shiftRows (shiftRows (shiftRows (shiftRows a))) = a := by
  have hbyte (b : Block) (i : Fin 16) : (shiftRows b).byte i = b.byte (rowSource i) := byte_shiftRows b i
  ext1 i
  rw [hbyte, hbyte, hbyte, hbyte, rowSource_four_times]

/-- A map of order four is a bijection. -/
theorem bijective_of_four_times {α : Type} {f : α → α} (h : ∀ a, f (f (f (f a))) = a) : Function.Bijective f :=
  Function.bijective_iff_has_inverse.2 ⟨fun a => f (f (f a)), h, h⟩

theorem subBytes_bijective : Function.Bijective subBytes := by
  obtain ⟨g, hleft, hright⟩ := Function.bijective_iff_has_inverse.1 sbox_bijective
  refine Function.bijective_iff_has_inverse.2 ⟨fun a => Block.ofFn fun i => g (a.byte i), fun a => ?_, fun a => ?_⟩
  · ext1 i
    rw [Block.byte_ofFn, byte_subBytes, hleft]
  · ext1 i
    rw [byte_subBytes, Block.byte_ofFn, hright]

/-- Settles O53: the three parts of the AES round are permutations of the Blocks. -/
theorem aesCoreIsAPermutation : Obligations.AesCoreIsAPermutation := by
  unfold Obligations.AesCoreIsAPermutation
  have hmix := bijective_of_four_times mixColumns_four_times
  have hshift := bijective_of_four_times shiftRows_four_times
  exact hmix.comp (hshift.comp subBytes_bijective)

/-! The beats of a pseudo-command (R69). -/

theorem flatten_fullBeats (bytes : List Byte) (q : Nat) :
    ((List.range q).map fun k => (bytes.drop (16 * k)).take 16).flatten = bytes.take (16 * q) := by
  induction q with
  | zero => rfl
  | succ q ih => rw [List.range_succ, List.map_append, List.flatten_append, ih, Nat.mul_succ, List.take_add]; simp

/-- Settles O49: the full beats are the leading multiple of sixteen bytes, the last beat is what remains. -/
theorem starBeatsCoverTheString : Obligations.StarBeatsCoverTheString := by
  unfold Obligations.StarBeatsCoverTheString
  intro bytes
  have hlast : (if bytes.length % 16 = 0 then [] else [bytes.drop (16 * (bytes.length / 16))]).flatten =
      bytes.drop (16 * (bytes.length / 16)) := by
    split
    next h => exact (List.drop_eq_nil_of_le (by omega)).symm
    next h => exact List.flatten_singleton
  refine ⟨?cover, fun b hb => ?size⟩
  case cover => rw [starBeats, List.flatten_append, flatten_fullBeats, hlast, List.take_append_drop]
  case size =>
    rw [starBeats, List.mem_append] at hb
    obtain hfull | hrest := hb
    · obtain ⟨k, hk, rfl⟩ := List.mem_map.1 hfull
      rw [List.mem_range] at hk
      rw [List.length_take, List.length_drop]
      omega
    · split at hrest
      next h => cases hrest
      next h =>
        obtain rfl := List.mem_singleton.1 hrest
        rw [List.length_drop]
        omega

end Sys2Proof.Machine
end

section
/-!
Sequences of packets: what a list of commands does to the registers and what it returns, composed end to end; and the
whole streams of R103, R113, R114.
-/

namespace Sys2Proof.Machine

/-- The packets `ps`, presented one after another to an engine with the registers `e`, lead to the registers `e'` and
return the bytes `out`, whatever is presented after them. -/
def Plays (e : Engine) (ps : List CommandPacket) (e' : Engine) (out : List Byte) : Prop :=
  ∀ (s : State) (rest : List HostEvent), s.eng = e → s.pending = ps.map .command ++ rest →
    ∃ (t : State) (rs : List Response), Sys2Proof.core.run ps.length s = .next t ∧ t.eng = e' ∧ t.pending = rest ∧
      t.responses = s.responses ++ rs ∧ outputBytes rs = out

theorem Plays.nil (e : Engine) : Plays e [] e [] :=
  fun s _ heng hpend => ⟨s, [], rfl, heng, hpend, (List.append_nil _).symm, rfl⟩

theorem Plays.append {e f g : Engine} {ps qs : List CommandPacket} {out out' : List Byte} (h : Plays e ps f out)
    (h' : Plays f qs g out') : Plays e (ps ++ qs) g (out ++ out') := by
  intro s rest heng hpend
  rw [List.map_append, List.append_assoc] at hpend
  obtain ⟨t, rs, hrun, hteng, htpend, htresp, hout⟩ := h s _ heng hpend
  obtain ⟨u, rs', hrun', hueng, hupend, huresp, hout'⟩ := h' t rest hteng htpend
  refine ⟨u, rs ++ rs', ?_, hueng, hupend, ?_, ?_⟩
  · rw [List.length_append, run_add _ hrun, hrun']
  · rw [huresp, htresp, List.append_assoc]
  · rw [outputBytes_append, hout, hout']

/-- One packet: a command that ends with the registers `e'` and at most sixteen bytes. -/
theorem Plays.packet {i : Instr} {bytes : List Byte} {e e' : Engine} {out : List Byte} (hwf : i.WellFormed)
    (hout : out.length ≤ 16)
    (h : ∀ s : State, s.eng = e → s.din = dataInOf bytes → ∃ err, exec i s = .next (s.finish e' err out)) :
    Plays e [packetOf i bytes] e' out := by
  intro s rest heng hpend
  obtain ⟨err, hexec⟩ := h (({ s with pending := rest } : State).present (packetOf i bytes)) heng rfl
  have hstep := (step_command hpend (decode_encode hwf)).trans hexec
  exact ⟨_, [responseOf err out e'], run_succ 0 hstep, rfl, rfl, rfl, outputBytes_responseOf err out hout e'⟩

/-- The run of exactly these packets. -/
theorem Plays.run {s : State} {ps : List CommandPacket} {e' : Engine} {out : List Byte} (h : Plays s.eng ps e' out) :
    ∃ (t : State) (rs : List Response), Sys2Proof.core.run ps.length (s.withPackets ps) = .next t ∧
      t.responses = s.responses ++ rs ∧ t.eng = e' ∧ outputBytes rs = out := by
  obtain ⟨t, rs, hrun, heng, -, hresp, hout⟩ := h (s.withPackets ps) [] rfl (List.append_nil _).symm
  exact ⟨t, rs, hrun, hresp, heng, hout⟩

theorem fitsField_of_le_32 {n : Nat} (h : n ≤ 32) : fitsField n = true := decide_eq_true (by omega)

/-! Setting up. -/

/-- The engine with the key loaded (R130). -/
def Engine.rekeyed (e : Engine) (key : List Byte) : Engine :=
  { e with k0 := zeropad key, k1 := zeropad (key.drop 16), keyv := true }

/-- The engine `INIT` leaves under the key and the nonce (R93). -/
def Engine.opened (e : Engine) (key nonce : List Byte) (d : Dir) : Engine :=
  { (e.rekeyed key).discarded .initialized with s := initWhole config key nonce, dir := d }

theorem plays_abort (e : Engine) : Plays e [packetOf .abort []] (e.discarded .idle) [] := by
  refine .packet rfl (Nat.zero_le _) fun s heng _ => ⟨.ok, ?_⟩
  rw [exec_abort, heng]
  rfl

theorem plays_setkey {e : Engine} {key : List Byte} (hp : BetweenInvocations e.phase) (hkey : key.length = 32) :
    Plays e [packetOf (.setkey key.length) key] (e.rekeyed key) [] := by
  refine .packet (fitsField_of_le_32 hkey.le) (Nat.zero_le _) fun s heng hdin => ⟨.ok, ?_⟩
  subst heng
  rw [exec_setkey ⟨hp, trivial, trivial, hkey⟩, hdin]
  rfl

theorem plays_init {e : Engine} {key nonce : List Byte} (d : Dir) (hp : BetweenInvocations e.phase)
    (hnonce : nonce.length = 32) :
    Plays (e.rekeyed key) [packetOf (.init nonce.length d) nonce] (e.opened key nonce d) [] := by
  refine .packet (fitsField_of_le_32 hnonce.le) (Nat.zero_le _) fun s heng hdin => ⟨.ok, ?_⟩
  have hruns : Runs (.init nonce.length d) s.eng := heng ▸ ⟨hp, trivial, rfl, hnonce⟩
  rw [exec_init hruns, hdin, heng]
  rfl

theorem plays_setup {e : Engine} {key nonce : List Byte} (d : Dir) (hp : BetweenInvocations e.phase)
    (hkey : key.length = 32) (hnonce : nonce.length = 32) :
    Plays e [packetOf (.setkey key.length) key, packetOf (.init nonce.length d) nonce] (e.opened key nonce d) [] :=
  (plays_setkey hp hkey).append (plays_init d hp hnonce)

/-- Settles O39: `ABORT` leads to `IDLE` from everywhere, and from there the key and the invocation are set up. -/
theorem abortSetkeyInitRecovers : Obligations.AbortSetkeyInitRecovers := by
  unfold Obligations.AbortSetkeyInitRecovers
  intro s key nonce dir hkey hnonce
  have hsetup := plays_setup (e := s.eng.discarded .idle) dir (.inl rfl) hkey hnonce
  rw [hkey, hnonce] at hsetup
  obtain ⟨t, rs, hrun, -, heng, -⟩ := ((plays_abort s.eng).append hsetup).run
  exact ⟨t, hrun, by rw [heng]; rfl, by rw [heng]; rfl, by rw [heng]; rfl, by rw [heng]; rfl⟩

/-! Associated data in beats. -/

/-- `e'` has the Context and the direction of `e` (R32). -/
structure SameContext (e e' : Engine) : Prop where
  k0 : e'.k0 = e.k0
  k1 : e'.k1 = e.k1
  keyv : e'.keyv = e.keyv
  taglen : e'.taglen = e.taglen
  dir : e'.dir = e.dir

theorem SameContext.refl (e : Engine) : SameContext e e := ⟨rfl, rfl, rfl, rfl, rfl⟩

theorem SameContext.trans {a b c : Engine} (h : SameContext a b) (h' : SameContext b c) : SameContext a c :=
  ⟨h'.k0.trans h.k0, h'.k1.trans h.k1, h'.keyv.trans h.keyv, h'.taglen.trans h.taglen, h'.dir.trans h.dir⟩

theorem bitCount_zero : bitCount 0 = 0 := rfl

/-- A counter that starts at zero. -/
theorem zero_add_bitCount (n : Nat) : 0 + bitCount n = BitVec.ofNat 64 (8 * n) := BitVec.zero_add _

/-- Counting one beat after another counts them together (R27). -/
theorem count_append {a b c : BitVec 64} {xs ys : List Byte} (h : b = a + bitCount xs.length)
    (h' : c = b + bitCount ys.length) : c = a + bitCount (xs ++ ys).length := by
  rw [h', h, BitVec.add_assoc, bitCount_add, List.length_append]

/-- `e'` is `e` after the associated data `data` (R102). -/
structure AdTaken (e : Engine) (data : List Byte) (e' : Engine) : Prop where
  stream : SameStream (takeBytes config e data) e'
  adbits : e'.adbits = e.adbits + bitCount data.length
  msgbits : e'.msgbits = e.msgbits
  phase : e'.phase = .initialized ∨ e'.phase = .absorbingAd
  context : SameContext e e'

theorem AdTaken.nil {e : Engine} (hp : e.phase = .initialized ∨ e.phase = .absorbingAd) : AdTaken e [] e :=
  ⟨.refl e, by simp [bitCount_zero], rfl, hp, .refl e⟩

theorem AdTaken.append {e f g : Engine} {xs ys : List Byte} (h : AdTaken e xs f) (h' : AdTaken f ys g) :
    AdTaken e (xs ++ ys) g where
  stream := by
    rw [takeBytes_append]
    exact (takeBytes_sameStream h.stream config ys).trans h'.stream
  adbits := count_append h.adbits h'.adbits
  msgbits := h'.msgbits.trans h.msgbits
  phase := h'.phase
  context := h.context.trans h'.context

theorem plays_ad {e : Engine} {b : List Byte} (hp : e.phase = .initialized ∨ e.phase = .absorbingAd)
    (hlen : b.length ≤ 16) : ∃ e', Plays e [packetOf (.ad b.length) b] e' [] ∧ AdTaken e b e' := by
  have hs := takeBytes_sameBut config e b
  refine ⟨{ takeBytes config e b with adbits := e.adbits + bitCount b.length, phase := .absorbingAd },
    .packet (fitsField_of_le_32 (by omega)) (Nat.zero_le _) fun s heng hdin => ⟨.ok, ?_⟩,
    ⟨⟨rfl, rfl, rfl⟩, rfl, hs.msgbits, .inr rfl, ⟨hs.k0, hs.k1, hs.keyv, hs.taglen, hs.dir⟩⟩⟩
  subst heng
  rw [exec_ad ⟨hp, trivial, trivial, hlen⟩, hdin, first_dataInOf b (by omega)]

theorem plays_adPackets {e : Engine} {beats : List (List Byte)}
    (hp : e.phase = .initialized ∨ e.phase = .absorbingAd) (hlen : ∀ b ∈ beats, b.length ≤ 16) :
    ∃ e', Plays e (adPackets beats) e' [] ∧ AdTaken e beats.flatten e' := by
  induction beats generalizing e with
  | nil => exact ⟨e, .nil e, .nil hp⟩
  | cons b bs ih =>
    obtain ⟨hb, hbs⟩ := List.forall_mem_cons.1 hlen
    obtain ⟨f, hplays, htaken⟩ := plays_ad hp hb
    obtain ⟨g, hplays', htaken'⟩ := ih htaken.phase hbs
    exact ⟨g, hplays.append hplays', htaken.append htaken'⟩

theorem AdTaken.flush {S : SixBlocks} {e e' : Engine} {data : List Byte} (h : AdTaken e data e')
    (hs : Absorbed config S [] e) : (flushTail config e').s = processWhole config S data :=
  ((hs.takeBytes data).congr h.stream.s h.stream.buf h.stream.pos).flushTail

/-- Settles O43: the beats take their concatenation, and flushing that gives the one-call form. -/
theorem adBeatsEqualOneCall : Obligations.AdBeatsEqualOneCall := by
  unfold Obligations.AdBeatsEqualOneCall
  intro s beats hinv hp hlen
  obtain ⟨e', hplays, htaken⟩ := plays_adPackets (.inl hp) hlen
  obtain ⟨t, rs, hrun, -, heng, -⟩ := hplays.run
  obtain ⟨-, had, -⟩ := hinv.fresh hp
  rw [adPackets, List.length_map] at hrun
  refine ⟨t, hrun, ?_, ?_⟩
  · rw [heng, htaken.flush (absorbed_of_initialized hinv hp)]
  · rw [heng, htaken.adbits, had, zero_add_bitCount]

/-! Payload in beats. -/

/-- `ENC` or `DEC`, by the direction (R111, R112). -/
def cryptInstr (d : Dir) (len : Nat) : Instr :=
  match d with
  | .encrypt => .enc len
  | .decrypt => .dec len

/-- One `ENC` or `DEC` for each beat (R69). -/
def cryptPackets (d : Dir) (beats : List (List Byte)) : List CommandPacket :=
  beats.map fun b => packetOf (cryptInstr d b.length) b

theorem decPackets_eq (beats : List (List Byte)) : decPackets beats = cryptPackets .decrypt beats := rfl

theorem exec_cryptInstr {d : Dir} {len : Nat} {s : State} (hp : InvocationOpen s.eng.phase) (hd : s.eng.dir = d)
    (hlen : len ≤ 16) :
    exec (cryptInstr d len) s =
      .next (s.finish { (cryptBytes config d (beginPayload config s.eng) (s.din.first len)).2 with
        msgbits := s.eng.msgbits + bitCount len, phase := .processingPayload } .ok
        (cryptBytes config d (beginPayload config s.eng) (s.din.first len)).1) := by
  have hcrypt : exec (cryptInstr d len) s = cryptBeat d len s := by cases d <;> rfl
  rw [hcrypt, exec_crypt hp hd hlen]

/-- The output of payload bytes taken from the engine `e` (R111, R112). -/
def payloadOutput (d : Dir) (e : Engine) (input : List Byte) : List Byte :=
  (cryptBytes config d (beginPayload config e) input).1

/-- `e'` is `e` after the payload bytes `input` (R111, R112). -/
structure PayloadTaken (d : Dir) (e : Engine) (input : List Byte) (e' : Engine) : Prop where
  stream : SameStream (cryptBytes config d (beginPayload config e) input).2 (beginPayload config e')
  adbits : e'.adbits = e.adbits
  msgbits : e'.msgbits = e.msgbits + bitCount input.length
  opened : InvocationOpen e'.phase
  context : SameContext e e'

theorem PayloadTaken.nil {e : Engine} (d : Dir) (hp : InvocationOpen e.phase) : PayloadTaken d e [] e :=
  ⟨.refl _, rfl, by simp [bitCount_zero], hp, .refl e⟩

theorem PayloadTaken.append {d : Dir} {e f g : Engine} {xs ys : List Byte} (h : PayloadTaken d e xs f)
    (h' : PayloadTaken d f ys g) : PayloadTaken d e (xs ++ ys) g where
  stream := by
    rw [cryptBytes_append]
    exact (cryptBytes_sameStream h.stream config d ys).trans h'.stream
  adbits := h'.adbits.trans h.adbits
  msgbits := count_append h.msgbits h'.msgbits
  opened := h'.opened
  context := h.context.trans h'.context

theorem PayloadTaken.output_append {d : Dir} {e f : Engine} {xs : List Byte} (h : PayloadTaken d e xs f)
    (ys : List Byte) : payloadOutput d e (xs ++ ys) = payloadOutput d e xs ++ payloadOutput d f ys := by
  simp only [payloadOutput, cryptBytes_append, cryptBytes_output_congr h.stream]

theorem plays_crypt {d : Dir} {e : Engine} {b : List Byte} (hp : InvocationOpen e.phase) (hd : e.dir = d)
    (hlen : b.length ≤ 16) :
    ∃ e', Plays e [packetOf (cryptInstr d b.length) b] e' (payloadOutput d e b) ∧ PayloadTaken d e b e' := by
  have hs := payload_sameBut config d e b
  have hfits := fitsField_of_le_32 (hlen.trans (by decide))
  have hwf : (cryptInstr d b.length).WellFormed := by cases d <;> exact hfits
  refine ⟨{ (cryptBytes config d (beginPayload config e) b).2 with
      msgbits := e.msgbits + bitCount b.length, phase := .processingPayload },
    .packet hwf (by simpa [payloadOutput] using hlen) fun s heng hdin => ⟨.ok, ?_⟩,
    ⟨⟨rfl, rfl, rfl⟩, hs.adbits, rfl, .inr (.inr rfl), ⟨hs.k0, hs.k1, hs.keyv, hs.taglen, hs.dir⟩⟩⟩
  subst heng
  rw [exec_cryptInstr hp hd hlen, hdin, first_dataInOf b (by omega)]
  rfl

theorem plays_cryptPackets {d : Dir} {e : Engine} {beats : List (List Byte)} (hp : InvocationOpen e.phase)
    (hd : e.dir = d) (hlen : ∀ b ∈ beats, b.length ≤ 16) :
    ∃ e', Plays e (cryptPackets d beats) e' (payloadOutput d e beats.flatten) ∧
      PayloadTaken d e beats.flatten e' := by
  induction beats generalizing e with
  | nil => exact ⟨e, .nil e, .nil d hp⟩
  | cons b bs ih =>
    obtain ⟨hb, hbs⟩ := List.forall_mem_cons.1 hlen
    obtain ⟨f, hplays, htaken⟩ := plays_crypt hp hd hb
    obtain ⟨g, hplays', htaken'⟩ := ih htaken.opened (htaken.context.dir.trans hd) hbs
    refine ⟨g, ?_, htaken.append htaken'⟩
    rw [List.flatten_cons, htaken.output_append]
    exact hplays.append hplays'

/-- Ending the associated data first does not change what flushing gives (R101). -/
theorem flushTail_beginPayload (c : Config) (e : Engine) :
    (flushTail c (beginPayload c e)).s = (flushTail c e).s := by
  obtain ⟨hb, -⟩ | ⟨hb, -⟩ := beginPayload_eq c e
  · rw [hb]
  · rw [hb, flushTail_s c (flushTail c e)]
    rfl

theorem PayloadTaken.flush_eq {d : Dir} {e e' : Engine} {input : List Byte} (h : PayloadTaken d e input e') :
    (flushTail config e').s = (flushTail config (cryptBytes config d (beginPayload config e) input).2).s := by
  rw [← flushTail_beginPayload]
  exact (flushTail_sameStream h.stream config).s

/-- Before any payload, a payload starts from the flushed State with nothing waiting (R101). -/
theorem absorbed_beginPayload {e : Engine} (hp : e.phase = .initialized ∨ e.phase = .absorbingAd) :
    Absorbed config (flushTail config e).s [] (beginPayload config e) := by
  obtain ⟨-, hproc⟩ | ⟨hb, -⟩ := beginPayload_eq config e
  · rw [hproc] at hp
    simp at hp
  · rw [hb]
    exact .nil rfl rfl rfl

/-- Flushing after the payload gives the block form of the plaintext (R103, R113). -/
theorem PayloadTaken.flush {d : Dir} {S : SixBlocks} {e e' : Engine} {input : List Byte}
    (h : PayloadTaken d e input e') (hs : Absorbed config S [] (beginPayload config e)) :
    (flushTail config e').s = processWhole config S (plainOf d input (payloadOutput d e input)) := by
  rw [h.flush_eq, cryptBytes_engine]
  exact (hs.takeBytes _).flushTail

/-! A whole payload from a given State. -/

/-- A stream that starts from the State `S`, with nothing waiting. -/
def streamStart (S : SixBlocks) : Engine := { Engine.reset with s := S }

/-- The output of a whole payload taken from the State `S` (R111, R112). -/
def cryptWhole (d : Dir) (S : SixBlocks) (input : List Byte) : List Byte :=
  (cryptBytes config d (streamStart S) input).1

@[simp] theorem length_cryptWhole (d : Dir) (S : SixBlocks) (input : List Byte) :
    (cryptWhole d S input).length = input.length :=
  length_cryptBytes config d _ input

theorem absorbed_streamStart (S : SixBlocks) : Absorbed config S [] (streamStart S) := .nil rfl rfl rfl

/-- Encrypting is the block form of R113. -/
theorem cryptWhole_encrypt (S : SixBlocks) (input : List Byte) :
    cryptWhole .encrypt S input = encryptWhole config S input := by
  have hnil : encryptWhole config S [] = [] := rfl
  have hwhole := encryptWhole_append (absorbed_streamStart S) input
  rw [List.nil_append, hnil, List.nil_append] at hwhole
  exact hwhole.symm

/-- Decrypting undoes encrypting from the same State (R114). -/
theorem cryptWhole_decrypt_encrypt (S : SixBlocks) (input : List Byte) :
    cryptWhole .decrypt S (encryptWhole config S input) = input := by
  rw [← cryptWhole_encrypt]
  exact congrArg Prod.fst (decrypt_cryptBytes config (streamStart S) input)

/-- Nothing waiting is one and the same start of a stream. -/
theorem sameStream_streamStart {S : SixBlocks} {e : Engine} (h : Absorbed config S [] e) :
    SameStream (streamStart S) e :=
  ⟨h.s, h.buf, Fin.ext h.pos⟩

theorem payloadOutput_eq_cryptWhole {d : Dir} {S : SixBlocks} {e : Engine}
    (h : Absorbed config S [] (beginPayload config e)) (input : List Byte) :
    payloadOutput d e input = cryptWhole d S input :=
  cryptBytes_output_congr (sameStream_streamStart h) config d input

/-- Settles O44: the beats take their concatenation; its output is the block form, and so is the flushed State. -/
theorem encBeatsEqualBlockForm : Obligations.EncBeatsEqualBlockForm := by
  unfold Obligations.EncBeatsEqualBlockForm
  intro s beats hinv hp hd hlen
  obtain ⟨e', hplays, htaken⟩ := plays_cryptPackets (hp.imp_right .inl) hd hlen
  obtain ⟨t, rs, hrun, hresp, heng, hout⟩ := hplays.run
  rw [cryptPackets, List.length_map] at hrun
  have hstart := absorbed_beginPayload hp
  refine ⟨t, rs, hrun, hresp, ?_, ?_, ?_⟩
  · rw [hout, payloadOutput_eq_cryptWhole hstart, cryptWhole_encrypt]
  · rw [heng, htaken.flush hstart]
    rfl
  · rw [heng, htaken.msgbits, (pos_of_takesAd hinv hp).1, zero_add_bitCount]

/-- Settles O47: from the same stream registers decrypting undoes encrypting, whatever the beats. -/
theorem decryptionRecoversThePlaintext : Obligations.DecryptionRecoversThePlaintext := by
  unfold Obligations.DecryptionRecoversThePlaintext
  intro s s' msg ct _ hp hd heng' hlen
  obtain ⟨hmsg, hct⟩ := List.forall_mem_append.1 hlen
  obtain ⟨e, hplays, htaken⟩ := plays_cryptPackets hp hd hmsg
  obtain ⟨t, rs, hrun, hresp, heng, hout⟩ := hplays.run
  rw [cryptPackets, List.length_map] at hrun
  refine ⟨t, rs, hrun, hresp, fun hcipher => ?_⟩
  obtain ⟨e', hplays', htaken'⟩ := plays_cryptPackets (e := s'.eng) (beats := ct) (by rwa [heng']) (by rw [heng']) hct
  obtain ⟨t', rs', hrun', hresp', hengt', hout'⟩ := hplays'.run
  rw [cryptPackets, List.length_map] at hrun'
  have hsame : SameStream (beginPayload config s.eng) (beginPayload config s'.eng) :=
    beginPayload_sameStream (by rw [heng']; exact ⟨rfl, rfl, rfl⟩) config (by rw [heng'])
  have hundo := decrypt_cryptBytes config (beginPayload config s.eng) msg.flatten
  have hbytes : ct.flatten = (cryptBytes config .encrypt (beginPayload config s.eng) msg.flatten).1 :=
    hcipher.trans hout
  refine ⟨t', rs', hrun', hresp', ?plaintext, ?state, ?adbits, ?msgbits⟩
  case plaintext =>
    rw [hout', payloadOutput, cryptBytes_output_congr hsame, hbytes, hundo]
  case state =>
    rw [hengt', heng, htaken'.flush_eq, htaken.flush_eq,
      (flushTail_sameStream (cryptBytes_sameStream hsame config .decrypt ct.flatten) config).s, hbytes, hundo]
  case adbits => rw [hengt', heng, htaken'.adbits, htaken.adbits, heng']
  case msgbits => rw [hengt', heng, htaken'.msgbits, htaken.msgbits, heng', hbytes, length_cryptBytes]

end Sys2Proof.Machine
end

section
/-!
Whole invocations: `SEAL` and `OPEN` in any beats compute the source's algorithm, and undo each other (R50, R103, R113,
R120 to R125).
-/

namespace Sys2Proof.Machine

/-! The registers an invocation ends in. -/

theorem discarded_congr {e e' : Engine} (h : SameContext e e') (p : Phase) : e'.discarded p = e.discarded p := by
  simp only [Engine.discarded, h.k0, h.k1, h.keyv, h.taglen]

theorem derivedOf_eq_tagWhole {S : SixBlocks} {ad plain : List Byte} {e : Engine}
    (hflush : (flushTail config e).s = processWhole config (processWhole config S ad) plain)
    (had : e.adbits = bitCount ad.length) (hmsg : e.msgbits = bitCount plain.length) :
    derivedOf config e = tagWhole config S ad plain := by
  rw [← finishStream_eq_derivedOf, finishStream_derived, hflush, had, hmsg, tagWhole]

/-- `e'` is an engine just set up from `e` that has taken the associated data `ad` and the plaintext `plain` in the
direction `d`, and only needs to be finished. -/
structure ReadyToFinish (e : Engine) (key nonce : List Byte) (d : Dir) (ad plain : List Byte) (e' : Engine) : Prop where
  opened : InvocationOpen e'.phase
  dir : e'.dir = d
  taglen : e'.taglen = e.taglen
  discarded : ∀ p, e'.discarded p = (e.rekeyed key).discarded p
  derived : derivedOf config e' = tagWhole config (initWhole config key nonce) ad plain

/-- The packets of an invocation up to its end (R69). -/
def streamPackets (d : Dir) (key nonce : List Byte) (ad beats : List (List Byte)) : List CommandPacket :=
  [packetOf (.setkey key.length) key, packetOf (.init nonce.length d) nonce] ++ adPackets ad ++ cryptPackets d beats

/-- An invocation up to its end, in any beats. -/
theorem plays_streamPackets {e : Engine} {key nonce : List Byte} {ad beats : List (List Byte)} (d : Dir)
    (hp : BetweenInvocations e.phase) (hkey : key.length = 32) (hnonce : nonce.length = 32)
    (had : ∀ b ∈ ad, b.length ≤ 16) (hbeats : ∀ b ∈ beats, b.length ≤ 16) :
    let S := processWhole config (initWhole config key nonce) ad.flatten
    let out := cryptWhole d S beats.flatten
    ∃ e', Plays e (streamPackets d key nonce ad beats) e' out ∧
      ReadyToFinish e key nonce d ad.flatten (plainOf d beats.flatten out) e' := by
  intro S out
  obtain ⟨f, hplays, htaken⟩ := plays_adPackets (e := e.opened key nonce d) (.inl rfl) had
  have hdir : f.dir = d := htaken.context.dir
  obtain ⟨g, hplays', htaken'⟩ := plays_cryptPackets (htaken.phase.imp_right .inl) hdir hbeats
  have hS : (flushTail config f).s = S := htaken.flush (.nil rfl rfl rfl)
  have hstart := absorbed_beginPayload htaken.phase
  rw [hS] at hstart
  have hout : payloadOutput d f beats.flatten = out := payloadOutput_eq_cryptWhole hstart beats.flatten
  have hplain : (plainOf d beats.flatten out).length = beats.flatten.length := by
    cases d <;> simp [plainOf, out]
  rw [hout] at hplays'
  have hcontext := htaken.context.trans htaken'.context
  refine ⟨g, ((plays_setup d hp hkey hnonce).append hplays).append hplays', htaken'.opened, hcontext.dir,
    hcontext.taglen, fun p => (discarded_congr hcontext p).trans rfl, derivedOf_eq_tagWhole ?flush ?adbits ?msgbits⟩
  case flush => rw [htaken'.flush hstart, hout]
  case adbits => rw [htaken'.adbits, htaken.adbits]; exact zero_add_bitCount _
  case msgbits => rw [htaken'.msgbits, htaken.msgbits, hplain]; exact zero_add_bitCount _

/-! `SEAL`. -/

/-- What `SEAL` returns: the ciphertext, then the leading bytes of the tag (R113, R121). -/
def sealOutput (key nonce ad msg : List Byte) (taglen : BitVec 5) : List Byte :=
  encryptWhole config (processWhole config (initWhole config key nonce) ad) msg ++
    (tagWhole config (initWhole config key nonce) ad msg).toList.take taglen.toNat

theorem plays_seal {e : Engine} {key nonce : List Byte} {ad msg : List (List Byte)}
    (hp : BetweenInvocations e.phase) (hkey : key.length = 32) (hnonce : nonce.length = 32)
    (had : ∀ b ∈ ad, b.length ≤ 16) (hmsg : ∀ b ∈ msg, b.length ≤ 16) :
    Plays e (sealBeats key nonce ad msg) ((e.rekeyed key).discarded .tagEmitted)
      (sealOutput key nonce ad.flatten msg.flatten e.taglen) := by
  obtain ⟨f, hplays, hready⟩ := plays_streamPackets .encrypt hp hkey hnonce had hmsg
  have hemit : Plays f [packetOf .finalEmit []] (f.discarded .tagEmitted)
      ((derivedOf config f).toList.take f.taglen.toNat) := by
    refine .packet rfl (length_tag_le _ _) fun s heng _ => ⟨.ok, ?_⟩
    subst heng
    exact exec_finalEmit_derived hready.opened hready.dir
  rw [hready.discarded, hready.derived, hready.taglen] at hemit
  rw [cryptWhole_encrypt] at hplays
  exact hplays.append hemit

/-- Settles O45: `SEAL` plays to the output of the algorithm. -/
theorem sealComputesTheAlgorithm : Obligations.SealComputesTheAlgorithm := by
  unfold Obligations.SealComputesTheAlgorithm
  intro s key nonce ad msg _ hp hkey hnonce had hmsg S
  obtain ⟨t, rs, hrun, hresp, heng, hout⟩ := (plays_seal hp hkey hnonce had hmsg).run
  exact ⟨t, rs, hrun, hresp, by rw [heng]; rfl, hout⟩

/-! `OPEN`. -/

/-- What `OPEN` returns, whatever the verdict (R112). -/
def openOutput (key nonce ad ct : List Byte) : List Byte :=
  cryptWhole .decrypt (processWhole config (initWhole config key nonce) ad) ct

/-- The tag an opened message should have had (R123). -/
def openTag (key nonce ad ct : List Byte) : Block :=
  tagWhole config (initWhole config key nonce) ad (openOutput key nonce ad ct)

/-- The phase `OPEN` ends in (R123, R148). -/
def openVerdict (key nonce ad ct tag : List Byte) : Phase :=
  if tag = (openTag key nonce ad ct).toList.take tag.length then .verified else .authFailed

theorem plays_open {e : Engine} {key nonce tag : List Byte} {ad ct : List (List Byte)}
    (hp : BetweenInvocations e.phase) (hkey : key.length = 32) (hnonce : nonce.length = 32)
    (had : ∀ b ∈ ad, b.length ≤ 16) (hct : ∀ b ∈ ct, b.length ≤ 16) (htag : tag.length = e.taglen.toNat)
    (h16 : e.taglen.toNat ≤ 16) :
    Plays e (openBeats key nonce ad ct tag)
      ((e.rekeyed key).discarded (openVerdict key nonce ad.flatten ct.flatten tag))
      (openOutput key nonce ad.flatten ct.flatten) := by
  obtain ⟨f, hplays, hready⟩ := plays_streamPackets .decrypt hp hkey hnonce had hct
  have hderived : derivedOf config f = openTag key nonce ad.flatten ct.flatten := hready.derived
  have hverify : Plays f [packetOf (.finalVerify tag.length) tag]
      (f.discarded (openVerdict key nonce ad.flatten ct.flatten tag)) [] := by
    refine .packet (fitsField_of_le_32 (by omega)) (Nat.zero_le _) fun s heng hdin => ?_
    subst heng
    rw [exec_finalVerify_derived hready.opened hready.dir (by rw [hready.taglen, htag]) (by omega), hdin,
      first_dataInOf tag (by omega), hderived, openVerdict]
    split
    · exact ⟨.ok, rfl⟩
    · exact ⟨.authFail, rfl⟩
  rw [hready.discarded] at hverify
  simpa [openOutput, openBeats, streamPackets, decPackets_eq] using hplays.append hverify

/-- Settles O46: what `SEAL` and `OPEN` play to names the concatenated strings alone. -/
theorem beatLengthsDoNotMatter : Obligations.BeatLengthsDoNotMatter := by
  unfold Obligations.BeatLengthsDoNotMatter
  intro s key nonce tag ad ad' msg msg' hinv hp hkey hnonce hlen hadeq hmsgeq htag
  simp only [List.forall_mem_append] at hlen
  obtain ⟨⟨⟨had, had'⟩, hmsg⟩, hmsg'⟩ := hlen
  obtain ⟨-, h16⟩ := hinv.eng.taglen_range
  constructor
  · have hplays' := plays_seal hp hkey hnonce had' hmsg'
    rw [hadeq, hmsgeq] at hplays'
    obtain ⟨t, rs, hrun, hresp, heng, hout⟩ := (plays_seal hp hkey hnonce had hmsg).run
    obtain ⟨t', rs', hrun', hresp', heng', hout'⟩ := hplays'.run
    exact ⟨t, t', rs, rs', hrun, hrun', hresp, hresp', hout'.trans hout.symm, heng'.trans heng.symm⟩
  · have hplays' := plays_open hp hkey hnonce had' hmsg' htag h16
    rw [hadeq, hmsgeq] at hplays'
    obtain ⟨t, rs, hrun, hresp, heng, hout⟩ := (plays_open hp hkey hnonce had hmsg htag h16).run
    obtain ⟨t', rs', hrun', hresp', heng', hout'⟩ := hplays'.run
    exact ⟨t, t', rs, rs', hrun, hrun', hresp, hresp', hout'.trans hout.symm, heng'.trans heng.symm⟩

/-- A ciphertext and a tag that together are what `SEAL` returned are so each by itself. -/
theorem eq_of_sealOutput_eq {key nonce ad msg ct tag : List Byte} {taglen : BitVec 5}
    (htag : tag.length = taglen.toNat) (h16 : taglen.toNat ≤ 16)
    (h : sealOutput key nonce ad msg taglen = ct ++ tag) :
    ct = encryptWhole config (processWhole config (initWhole config key nonce) ad) msg ∧
      tag = (tagWhole config (initWhole config key nonce) ad msg).toList.take tag.length := by
  obtain ⟨hcipher, htail⟩ := List.append_inj' h (by rw [List.length_take, Block.length_toList]; omega)
  exact ⟨hcipher.symm, by rw [htag]; exact htail.symm⟩

/-- `OPEN` of what `SEAL` returned gives the message back and verifies (R125). -/
theorem open_of_sealed {key nonce ad msg ct tag : List Byte}
    (hct : ct = encryptWhole config (processWhole config (initWhole config key nonce) ad) msg)
    (htag : tag = (tagWhole config (initWhole config key nonce) ad msg).toList.take tag.length) :
    openOutput key nonce ad ct = msg ∧ openVerdict key nonce ad ct tag = .verified := by
  have hout : openOutput key nonce ad ct = msg := by
    rw [openOutput, hct, cryptWhole_decrypt_encrypt]
  have hopen : openTag key nonce ad ct = tagWhole config (initWhole config key nonce) ad msg := by
    rw [openTag, hout]
  exact ⟨hout, if_pos (by rw [hopen]; exact htag)⟩

/-- Settles O48: the output of `SEAL` splits into ciphertext and tag by the tag's length, and `OPEN` undoes both. -/
theorem openVerifiesWhatSealGave : Obligations.OpenVerifiesWhatSealGave := by
  unfold Obligations.OpenVerifiesWhatSealGave
  intro s s' key nonce ad ad' msg ct tag hinv _ hp hp' htaglen hkey hnonce hlen hadeq htag
  simp only [List.forall_mem_append] at hlen
  obtain ⟨⟨⟨had, had'⟩, hmsg⟩, hct⟩ := hlen
  obtain ⟨-, h16⟩ := hinv.eng.taglen_range
  obtain ⟨t, rs, hrun, hresp, -, hout⟩ := (plays_seal hp hkey hnonce had hmsg).run
  refine ⟨t, rs, hrun, hresp, fun hsealed => ?_⟩
  obtain ⟨hcipher, htail⟩ := eq_of_sealOutput_eq htag h16 (hout.symm.trans hsealed)
  obtain ⟨hmessage, hverdict⟩ := open_of_sealed hcipher htail
  have hplays := plays_open hp' hkey hnonce had' hct (htag.trans (congrArg _ htaglen.symm)) (by rwa [htaglen])
  rw [hadeq, hmessage, hverdict] at hplays
  obtain ⟨t', rs', hrun', hresp', heng', hout'⟩ := hplays.run
  exact ⟨t', rs', hrun', hresp', by rw [heng']; rfl, hout'⟩

end Sys2Proof.Machine
end
